-- ==== Sys2Proof/Word.lean ====
section
/-! DEFINITION. The word types of the core and their plainest arithmetic (10_state.md; 00_scope.md R9, R10). -/

namespace Sys2Proof

/-- One byte: a V register, a memory cell, an immediate `kk` (R21, R50, R73). -/
abbrev Byte := BitVec 8

/-- Sixteen bits: an instruction word, PC, I, a call-stack entry (R24, R28, R31, R70). -/
abbrev Word := BitVec 16

/-- The 12-bit address immediate `nnn` (R71, R73). -/
abbrev Addr12 := BitVec 12

/-- An index of a V register, V0 to VF (R21). -/
abbrev Reg := Fin 16

/-- A key of the keypad, 0 to 15 (R320). -/
abbrev Key := Fin 16

/-- A number of sprite rows, DRW's 4-bit operand `n` (R73, R101). -/
abbrev Rows := Fin 16

/-- VF, "reserved as the implicit carry/borrow/collision flag" (R22). -/
abbrev vf : Reg := 15

/-- `zext_16` of an address immediate (R10, R73). -/
abbrev zext12 (a : Addr12) : Word := a.setWidth 16

/-- `zext_16` of a byte (R10). -/
abbrev zext8 (b : Byte) : Word := b.setWidth 16

end Sys2Proof
end

