-- ==== Sys2Proof/Syntax.lean ====
section
/-! DEFINITION. The instruction set as syntax: one constructor per row of spec/opcode_table.json (30_encoding.md R85).
Operand fields have the widths of R71, so no term holds an operand too wide for its field (R98). The `y` of SHR and SHL
is kept although their rules ignore it (R76): it is part of the word. -/

namespace Sys2Proof

/-- The 34 instructions of R85, in the table's order. -/
inductive Instr where
  /-- `00E0` CLS (R100) -/
  | cls
  /-- `00EE` RET (R120) -/
  | ret
  /-- `1nnn` JMP nnn (R121) -/
  | jmp (nnn : Addr12)
  /-- `2nnn` CALL nnn (R122) -/
  | call (nnn : Addr12)
  /-- `3xkk` SE Vx,kk (R123) -/
  | seImm (x : Reg) (kk : Byte)
  /-- `4xkk` SNE Vx,kk (R124) -/
  | sneImm (x : Reg) (kk : Byte)
  /-- `5xy0` SE Vx,Vy (R125) -/
  | seReg (x y : Reg)
  /-- `6xkk` MOV Vx,kk (R140) -/
  | movImm (x : Reg) (kk : Byte)
  /-- `7xkk` ADD Vx,kk (R141) -/
  | addImm (x : Reg) (kk : Byte)
  /-- `8xy0` MOV Vx,Vy (R145) -/
  | movReg (x y : Reg)
  /-- `8xy1` OR Vx,Vy (R146) -/
  | orReg (x y : Reg)
  /-- `8xy2` AND Vx,Vy (R147) -/
  | andReg (x y : Reg)
  /-- `8xy3` XOR Vx,Vy (R148) -/
  | xorReg (x y : Reg)
  /-- `8xy4` ADD Vx,Vy (R149) -/
  | addReg (x y : Reg)
  /-- `8xy5` SUB Vx,Vy (R150) -/
  | sub (x y : Reg)
  /-- `8xy6` SHR Vx,Vy (R152) -/
  | shr (x y : Reg)
  /-- `8xy7` SUBN Vx,Vy (R151) -/
  | subn (x y : Reg)
  /-- `8xyE` SHL Vx,Vy (R154) -/
  | shl (x y : Reg)
  /-- `9xy0` SNE Vx,Vy (R126) -/
  | sneReg (x y : Reg)
  /-- `Annn` MOV I,nnn (R170) -/
  | movI (nnn : Addr12)
  /-- `Bnnn` JMP V0,nnn (R127) -/
  | jmpV0 (nnn : Addr12)
  /-- `Cxkk` RND Vx,kk (R156) -/
  | rnd (x : Reg) (kk : Byte)
  /-- `Dxyn` DRW Vx,Vy,n (R101) -/
  | drw (x y : Reg) (n : Rows)
  /-- `Ex9E` SKP Vx (R190) -/
  | skp (x : Reg)
  /-- `ExA1` SKNP Vx (R191) -/
  | sknp (x : Reg)
  /-- `Fx07` MOV Vx,DT (R192) -/
  | movVxDT (x : Reg)
  /-- `Fx0A` MOV Vx,K (R204) -/
  | movVxK (x : Reg)
  /-- `Fx15` MOV DT,Vx (R193) -/
  | movDTVx (x : Reg)
  /-- `Fx18` MOV ST,Vx (R194) -/
  | movSTVx (x : Reg)
  /-- `Fx1E` ADD I,Vx (R171) -/
  | addI (x : Reg)
  /-- `Fx29` MOV F,Vx (R172) -/
  | movF (x : Reg)
  /-- `Fx33` MOV B,Vx (R174) -/
  | movB (x : Reg)
  /-- `Fx55` MOV [I],Vx (R175) -/
  | storeRegs (x : Reg)
  /-- `Fx65` MOV Vx,[I] (R176) -/
  | loadRegs (x : Reg)
  deriving DecidableEq, Repr

end Sys2Proof
end

