-- ==== Sys2Proof/WellFormed.lean ====
section
/-! DEFINITION. Well-formedness. A term of `Instr` is well formed by its types, since every operand field has its width
(R71). The check that can fail is the one 30_encoding.md gives for an instruction AS WRITTEN in assembly, where operands are
numbers: R96 (operands), R97 (which mnemonic takes which operands) and R98 (an operand too wide for its field is a
diagnostic, never silently truncated). Here are that written form, its checks, and the two translations. -/

namespace Sys2Proof

/-- The spellings of R97; one may have several operand forms. -/
inductive Mnemonic where
  | CLS | RET | JMP | CALL | SE | SNE | MOV | ADD | OR | AND | XOR | SUB | SHR | SUBN | SHL | RND | DRW | SKP | SKNP
  deriving DecidableEq, Repr

/-- An operand as written (R96). The pseudo-operand `V0` of JMP is written as the register it names. -/
inductive Operand where
  /-- `V<index>`, the index in decimal -/
  | reg (index : Nat)
  /-- a decimal or hexadecimal number -/
  | num (value : Nat)
  /-- a label or constant name, which stands for its value -/
  | name (text : String)
  /-- the pseudo-operands `I`, `[I]`, `DT`, `ST`, `K`, `F` and `B` -/
  | I | indI | DT | ST | K | F | B
  deriving DecidableEq, Repr

/-- An instruction as written: "a mnemonic followed by operands" (R95). -/
structure AsmInstr where
  mnemonic : Mnemonic
  operands : List Operand
  deriving DecidableEq, Repr

/-- R96: a register operand is V0 to V15. -/
def regOperand? (index : Nat) : Option Reg := if h : index < 16 then some ⟨index, h⟩ else none

/-- R98: a byte immediate fits 8 bits. -/
def byteOperand? (value : Nat) : Option Byte := if value < 2 ^ 8 then some (BitVec.ofNat 8 value) else none

/-- R98: an address immediate fits 12 bits. -/
def addrOperand? (value : Nat) : Option Addr12 := if value < 2 ^ 12 then some (BitVec.ofNat 12 value) else none

/-- R98: a row count fits 4 bits. -/
def rowsOperand? (value : Nat) : Option Rows := if h : value < 16 then some ⟨value, h⟩ else none

/-- The forms with one register operand. -/
def withReg (x : Nat) (form : Reg → Instr) : Option Instr := (regOperand? x).map form

/-- The forms with one address operand. -/
def withAddr (nnn : Nat) (form : Addr12 → Instr) : Option Instr := (addrOperand? nnn).map form

/-- The forms with two register operands. -/
def withRegReg (x y : Nat) (form : Reg → Reg → Instr) : Option Instr :=
  (regOperand? x).bind fun rx => (regOperand? y).map fun ry => form rx ry

/-- The forms with a register and a byte operand. -/
def withRegByte (x kk : Nat) (form : Reg → Byte → Instr) : Option Instr :=
  (regOperand? x).bind fun rx => (byteOperand? kk).map fun k => form rx k

/-- The instruction a written form stands for, `none` where the assembler must give a diagnostic (R96 to R99). The form is
told "by operand count and type" (R97). A name must have been replaced by its value first (Machine/Assembly.lean). -/
def AsmInstr.toInstr? (a : AsmInstr) : Option Instr :=
  match a.mnemonic, a.operands with
  | .CLS, [] => some .cls
  | .RET, [] => some .ret
  | .JMP, [.num n] => withAddr n .jmp
  | .JMP, [.reg 0, .num n] => withAddr n .jmpV0
  | .CALL, [.num n] => withAddr n .call
  | .SE, [.reg x, .num k] => withRegByte x k .seImm
  | .SE, [.reg x, .reg y] => withRegReg x y .seReg
  | .SNE, [.reg x, .num k] => withRegByte x k .sneImm
  | .SNE, [.reg x, .reg y] => withRegReg x y .sneReg
  | .MOV, [.reg x, .num k] => withRegByte x k .movImm
  | .MOV, [.reg x, .reg y] => withRegReg x y .movReg
  | .MOV, [.I, .num n] => withAddr n .movI
  | .MOV, [.reg x, .DT] => withReg x .movVxDT
  | .MOV, [.reg x, .K] => withReg x .movVxK
  | .MOV, [.DT, .reg x] => withReg x .movDTVx
  | .MOV, [.ST, .reg x] => withReg x .movSTVx
  | .MOV, [.F, .reg x] => withReg x .movF
  | .MOV, [.B, .reg x] => withReg x .movB
  | .MOV, [.indI, .reg x] => withReg x .storeRegs
  | .MOV, [.reg x, .indI] => withReg x .loadRegs
  | .ADD, [.reg x, .num k] => withRegByte x k .addImm
  | .ADD, [.reg x, .reg y] => withRegReg x y .addReg
  | .ADD, [.I, .reg x] => withReg x .addI
  | .OR, [.reg x, .reg y] => withRegReg x y .orReg
  | .AND, [.reg x, .reg y] => withRegReg x y .andReg
  | .XOR, [.reg x, .reg y] => withRegReg x y .xorReg
  | .SUB, [.reg x, .reg y] => withRegReg x y .sub
  | .SHR, [.reg x, .reg y] => withRegReg x y .shr
  | .SUBN, [.reg x, .reg y] => withRegReg x y .subn
  | .SHL, [.reg x, .reg y] => withRegReg x y .shl
  | .RND, [.reg x, .num k] => withRegByte x k .rnd
  | .DRW, [.reg x, .reg y, .num n] => (rowsOperand? n).bind fun rows => withRegReg x y fun rx ry => .drw rx ry rows
  | .SKP, [.reg x] => withReg x .skp
  | .SKNP, [.reg x] => withReg x .sknp
  | _, _ => none

/-- A written instruction is well formed when it has one of the forms of R97 and each operand fits its field (R98). -/
def AsmInstr.wellFormed (a : AsmInstr) : Bool := a.toInstr?.isSome

/-- The written form of an instruction, the disassembler's result before it is printed (R97, R98). -/
def Instr.toAsm (i : Instr) : AsmInstr :=
  match i with
  | .cls => ⟨.CLS, []⟩
  | .ret => ⟨.RET, []⟩
  | .jmp nnn => ⟨.JMP, [.num nnn.toNat]⟩
  | .call nnn => ⟨.CALL, [.num nnn.toNat]⟩
  | .seImm x kk => ⟨.SE, [.reg x, .num kk.toNat]⟩
  | .sneImm x kk => ⟨.SNE, [.reg x, .num kk.toNat]⟩
  | .seReg x y => ⟨.SE, [.reg x, .reg y]⟩
  | .movImm x kk => ⟨.MOV, [.reg x, .num kk.toNat]⟩
  | .addImm x kk => ⟨.ADD, [.reg x, .num kk.toNat]⟩
  | .movReg x y => ⟨.MOV, [.reg x, .reg y]⟩
  | .orReg x y => ⟨.OR, [.reg x, .reg y]⟩
  | .andReg x y => ⟨.AND, [.reg x, .reg y]⟩
  | .xorReg x y => ⟨.XOR, [.reg x, .reg y]⟩
  | .addReg x y => ⟨.ADD, [.reg x, .reg y]⟩
  | .sub x y => ⟨.SUB, [.reg x, .reg y]⟩
  | .shr x y => ⟨.SHR, [.reg x, .reg y]⟩
  | .subn x y => ⟨.SUBN, [.reg x, .reg y]⟩
  | .shl x y => ⟨.SHL, [.reg x, .reg y]⟩
  | .sneReg x y => ⟨.SNE, [.reg x, .reg y]⟩
  | .movI nnn => ⟨.MOV, [.I, .num nnn.toNat]⟩
  | .jmpV0 nnn => ⟨.JMP, [.reg 0, .num nnn.toNat]⟩
  | .rnd x kk => ⟨.RND, [.reg x, .num kk.toNat]⟩
  | .drw x y n => ⟨.DRW, [.reg x, .reg y, .num n]⟩
  | .skp x => ⟨.SKP, [.reg x]⟩
  | .sknp x => ⟨.SKNP, [.reg x]⟩
  | .movVxDT x => ⟨.MOV, [.reg x, .DT]⟩
  | .movVxK x => ⟨.MOV, [.reg x, .K]⟩
  | .movDTVx x => ⟨.MOV, [.DT, .reg x]⟩
  | .movSTVx x => ⟨.MOV, [.ST, .reg x]⟩
  | .addI x => ⟨.ADD, [.I, .reg x]⟩
  | .movF x => ⟨.MOV, [.F, .reg x]⟩
  | .movB x => ⟨.MOV, [.B, .reg x]⟩
  | .storeRegs x => ⟨.MOV, [.indI, .reg x]⟩
  | .loadRegs x => ⟨.MOV, [.reg x, .indI]⟩

/-- An instruction is well formed when its written form is. Its types make this true of every term
(Laws/Decode.lean, `Instr.wellFormed_all`). -/
def Instr.wellFormed (i : Instr) : Bool := i.toAsm.wellFormed

end Sys2Proof
end

