-- ==== Sys2Proof/Decode.lean ====
section
/-! DEFINITION. The opcode table of 30_encoding.md R85, the decoder over it (R74) and, after them, the encoder (R98). -/

namespace Sys2Proof

/-- An operand field of an instruction word: bits `hi` down to `lo` (R71). -/
structure Field where
  hi : Nat
  lo : Nat
  deriving DecidableEq, Repr

namespace Field

/-- `x`, w[11:8] (R71). -/
def x : Field := ⟨11, 8⟩
/-- `y`, w[7:4] (R71). -/
def y : Field := ⟨7, 4⟩
/-- `n`, w[3:0] (R71). -/
def n : Field := ⟨3, 0⟩
/-- `kk`, w[7:0] (R71). -/
def kk : Field := ⟨7, 0⟩
/-- `nnn`, w[11:0] (R71). -/
def nnn : Field := ⟨11, 0⟩

/-- The bits of a word that a field takes. -/
def mask (f : Field) : Word := BitVec.ofNat 16 (2 ^ (f.hi + 1) - 2 ^ f.lo)

end Field

/-- The register index in w[11:8]. -/
def xOf (w : Word) : Reg := (w.extractLsb' 8 4).toFin
/-- The register index in w[7:4]. -/
def yOf (w : Word) : Reg := (w.extractLsb' 4 4).toFin
/-- The row count in w[3:0]. -/
def nOf (w : Word) : Rows := (w.extractLsb' 0 4).toFin
/-- The byte immediate in w[7:0]. -/
def kkOf (w : Word) : Byte := w.extractLsb' 0 8
/-- The address immediate in w[11:0]. -/
def nnnOf (w : Word) : Addr12 := w.extractLsb' 0 12

/-- One row of the opcode table: its `base`, its operand descriptors, and the instruction it makes of a matching word. -/
structure Row where
  base : Word
  fields : List Field
  build : Word → Instr

/-- "the complement of the union of all operand bit-masks for that entry", derived from the descriptors (R74). -/
def Row.mask (r : Row) : Word := ~~~ (r.fields.foldl (fun m f => m ||| f.mask) 0)

/-- "A word matches a row iff `word & mask == base`" (R74). -/
def Row.matches (r : Row) (w : Word) : Bool := w &&& r.mask == r.base

/-- Format FIX: all 16 bits fixed (R72). -/
def rowFIX (base : Word) (i : Instr) : Row := ⟨base, [], fun _ => i⟩
/-- Format NNN: an address operand (R72). -/
def rowNNN (base : Word) (form : Addr12 → Instr) : Row := ⟨base, [.nnn], fun w => form (nnnOf w)⟩
/-- Format XKK: a register and a byte operand (R72). -/
def rowXKK (base : Word) (form : Reg → Byte → Instr) : Row := ⟨base, [.x, .kk], fun w => form (xOf w) (kkOf w)⟩
/-- Format XYN with `n` fixed: two register operands (R72). -/
def rowXY (base : Word) (form : Reg → Reg → Instr) : Row := ⟨base, [.x, .y], fun w => form (xOf w) (yOf w)⟩
/-- Format XYN with `n` an operand (R72). -/
def rowXYN (base : Word) (form : Reg → Reg → Rows → Instr) : Row :=
  ⟨base, [.x, .y, .n], fun w => form (xOf w) (yOf w) (nOf w)⟩
/-- Format XFF: a register operand, the low byte fixed (R72). -/
def rowXFF (base : Word) (form : Reg → Instr) : Row := ⟨base, [.x], fun w => form (xOf w)⟩

/-- Rows 1 to 9 of R85: major nibbles 0 to 7. -/
def rowsMajor0to7 : List Row :=
  [rowFIX 0x00E0 .cls, rowFIX 0x00EE .ret, rowNNN 0x1000 .jmp, rowNNN 0x2000 .call, rowXKK 0x3000 .seImm,
   rowXKK 0x4000 .sneImm, rowXY 0x5000 .seReg, rowXKK 0x6000 .movImm, rowXKK 0x7000 .addImm]

/-- Rows 10 to 18 of R85: major nibble 8, the register-register group (R81). -/
def rowsMajor8 : List Row :=
  [rowXY 0x8000 .movReg, rowXY 0x8001 .orReg, rowXY 0x8002 .andReg, rowXY 0x8003 .xorReg, rowXY 0x8004 .addReg,
   rowXY 0x8005 .sub, rowXY 0x8006 .shr, rowXY 0x8007 .subn, rowXY 0x800E .shl]

/-- Rows 19 to 25 of R85: major nibbles 9 to E. -/
def rowsMajor9toE : List Row :=
  [rowXY 0x9000 .sneReg, rowNNN 0xA000 .movI, rowNNN 0xB000 .jmpV0, rowXKK 0xC000 .rnd, rowXYN 0xD000 .drw,
   rowXFF 0xE09E .skp, rowXFF 0xE0A1 .sknp]

/-- Rows 26 to 34 of R85: major nibble F (R84). -/
def rowsMajorF : List Row :=
  [rowXFF 0xF007 .movVxDT, rowXFF 0xF00A .movVxK, rowXFF 0xF015 .movDTVx, rowXFF 0xF018 .movSTVx, rowXFF 0xF01E .addI,
   rowXFF 0xF029 .movF, rowXFF 0xF033 .movB, rowXFF 0xF055 .storeRegs, rowXFF 0xF065 .loadRegs]

/-- The complete table, 34 rows (R85). -/
def opcodeTable : List Row := rowsMajor0to7 ++ rowsMajor8 ++ rowsMajor9toE ++ rowsMajorF

/-- Why bytes are no instruction. -/
inductive DecodeError where
  /-- the word matches no row of the table: Invalid (R86) -/
  | invalidOpcode (word : Word)
  /-- fewer than the two bytes an instruction takes (R70) -/
  | tooShort
  deriving DecidableEq, Repr

/-- `decode`: the matching row's instruction; "no match yields an explicit "invalid opcode" result" (R74). -/
def decode (w : Word) : Except DecodeError Instr :=
  match opcodeTable.find? fun r => r.matches w with
  | some r => .ok (r.build w)
  | none => .error (.invalidOpcode w)

/-- Two bytes as a word, the first in the high half (R55). -/
def wordOfBytes (hi lo : Byte) : Word := hi ++ lo

/-- The high byte of a word, stored at the lower address (R55). -/
def hiByte (w : Word) : Byte := w.extractLsb' 8 8

/-- The low byte of a word (R55). -/
def loByte (w : Word) : Byte := w.extractLsb' 0 8

/-- Decoding the bytes at an address: always two of them (R70); answers the instruction and the bytes after it. -/
def decodeBytes (bytes : List Byte) : Except DecodeError (Instr × List Byte) :=
  match bytes with
  | hi :: lo :: rest => (decode (wordOfBytes hi lo)).map fun i => (i, rest)
  | _ => .error .tooShort

/-- The instruction the decoder reads from a word given as the opcode table numbers its bits (bit 0 is the word's least
significant bit), with every bit from `nbits` up zero, laid out as memory stores it. -/
def decodeTableWord (nbits w : Nat) : Option Instr :=
  let word : Word := BitVec.ofNat 16 (w % 2 ^ nbits)
  match decodeBytes [hiByte word, loByte word] with
  | .ok (i, _) => some i
  | .error _ => none

/-- An operand "shifted into its bit-mask position" (R98). -/
def place (f : Field) (value : Nat) : Word := BitVec.ofNat 16 value <<< f.lo

/-- Format NNN (R72, R98). -/
def encodeNNN (base : Word) (nnn : Addr12) : Word := base ||| place .nnn nnn.toNat
/-- Format XKK (R72, R98). -/
def encodeXKK (base : Word) (x : Reg) (kk : Byte) : Word := base ||| place .x x ||| place .kk kk.toNat
/-- Format XYN with `n` in the base (R72, R98). -/
def encodeXY (base : Word) (x y : Reg) : Word := base ||| place .x x ||| place .y y
/-- Format XYN with `n` an operand (R72, R98). -/
def encodeXYN (base : Word) (x y : Reg) (n : Rows) : Word := base ||| place .x x ||| place .y y ||| place .n n
/-- Format XFF (R72, R98). -/
def encodeXFF (base : Word) (x : Reg) : Word := base ||| place .x x

/-- The word of an instruction: "OR-ing the base pattern with each operand's value shifted into its bit-mask position"
(R98), with the encodings of R77 to R84. -/
def encode (i : Instr) : Word :=
  match i with
  | .cls => 0x00E0
  | .ret => 0x00EE
  | .jmp nnn => encodeNNN 0x1000 nnn
  | .call nnn => encodeNNN 0x2000 nnn
  | .seImm x kk => encodeXKK 0x3000 x kk
  | .sneImm x kk => encodeXKK 0x4000 x kk
  | .seReg x y => encodeXY 0x5000 x y
  | .movImm x kk => encodeXKK 0x6000 x kk
  | .addImm x kk => encodeXKK 0x7000 x kk
  | .movReg x y => encodeXY 0x8000 x y
  | .orReg x y => encodeXY 0x8001 x y
  | .andReg x y => encodeXY 0x8002 x y
  | .xorReg x y => encodeXY 0x8003 x y
  | .addReg x y => encodeXY 0x8004 x y
  | .sub x y => encodeXY 0x8005 x y
  | .shr x y => encodeXY 0x8006 x y
  | .subn x y => encodeXY 0x8007 x y
  | .shl x y => encodeXY 0x800E x y
  | .sneReg x y => encodeXY 0x9000 x y
  | .movI nnn => encodeNNN 0xA000 nnn
  | .jmpV0 nnn => encodeNNN 0xB000 nnn
  | .rnd x kk => encodeXKK 0xC000 x kk
  | .drw x y n => encodeXYN 0xD000 x y n
  | .skp x => encodeXFF 0xE09E x
  | .sknp x => encodeXFF 0xE0A1 x
  | .movVxDT x => encodeXFF 0xF007 x
  | .movVxK x => encodeXFF 0xF00A x
  | .movDTVx x => encodeXFF 0xF015 x
  | .movSTVx x => encodeXFF 0xF018 x
  | .addI x => encodeXFF 0xF01E x
  | .movF x => encodeXFF 0xF029 x
  | .movB x => encodeXFF 0xF033 x
  | .storeRegs x => encodeXFF 0xF055 x
  | .loadRegs x => encodeXFF 0xF065 x

end Sys2Proof
end

