-- ==== Sys2Proof/Config.lean ====
section
/-! DEFINITION. The implementation parameters of 00_scope.md R7, each one a configuration field under its own name, which
the state carries and the definitions read (C14, U12 and U18: "a model takes the value as an argument"), and the free values
the spec leaves to the environment (R41). -/

namespace Sys2Proof

/-- The parameters of R7, in its order. -/
structure Parameters where
  /-- `REG_BITS`: the width of a V register (R21) -/
  regBits : Nat
  /-- `NREGS`: the number of V registers (R21) -/
  nregs : Nat
  /-- `I_BITS`: the width of I (R28) -/
  iBits : Nat
  /-- `PC_BITS`: the width of PC and of a stack entry (decision D37) -/
  pcBits : Nat
  /-- `MEM_SIZE`: the bytes of memory (R50) -/
  memSize : Nat
  /-- `LOAD_BASE`: where a program image is loaded and where it starts (R402, R403) -/
  loadBase : Nat
  /-- `MAX_PROGRAM`: the largest program image, in bytes (R402) -/
  maxProgram : Nat
  /-- `STACK_DEPTH`: the entries of the call stack (R31) -/
  stackDepth : Nat
  /-- `DISP_W`: the display's columns (R34) -/
  dispW : Nat
  /-- `DISP_H`: the display's rows (R34) -/
  dispH : Nat
  /-- `FB_BYTES`: the framebuffer's bytes as the host sees them (R35) -/
  fbBytes : Nat
  /-- `FONT_GLYPHS`: the glyphs of the font (R36) -/
  fontGlyphs : Nat
  /-- `GLYPH_BYTES`: the bytes of one glyph (R36) -/
  glyphBytes : Nat
  /-- `FONT_BASE`: the address of glyph 0 (decision D14) -/
  fontBase : Nat
  /-- `FONT`: the glyph bytes, glyph 0 first and each glyph top row first (R36, decision D15) -/
  font : List Byte
  /-- `NKEYS`: the keys of the keypad (R320) -/
  nkeys : Nat
  /-- `INSN_BYTES`: the length of an instruction (R70) -/
  insnBytes : Nat
  /-- `TIMER_HZ`: ticks per second of real time (R205) -/
  timerHz : Nat
  /-- `CPU_HZ`: `none` where it is OPEN, as the spec leaves it (decision D29) -/
  cpuHz : Option Nat
  deriving DecidableEq, Repr

/-- What the rules' text takes for granted of the parameters (assumption log 15). -/
structure Parameters.Valid (p : Parameters) : Prop where
  /-- arithmetic on V is mod 256, and a register's value is a byte of memory (R141, R149, R175) -/
  regBits : p.regBits = 8
  /-- a register index is a 4-bit field (R72, R73) -/
  nregs : p.nregs = 16
  /-- ADD I,Vx is mod 2^16 (R171) -/
  iBits : p.iBits = 16
  /-- decision D37 -/
  pcBits : p.pcBits = 16
  /-- an instruction is one 16-bit word, and the next one is at pc0 + 2 (R25, R70) -/
  insnBytes : p.insnBytes = 2
  /-- a key is 0 to 15 (R190, R320) -/
  nkeys : p.nkeys = 16
  /-- a glyph is chosen by a nibble (R36, R172) -/
  fontGlyphs : p.fontGlyphs = 16
  /-- R36 -/
  font : p.font.length = p.fontGlyphs * p.glyphBytes
  /-- the font lies below the code region (R51) -/
  low_font : p.fontBase + p.font.length ≤ p.loadBase
  /-- the entry point is even (R26, R403) -/
  entry_even : p.loadBase % 2 = 0
  /-- the entry point has room for an instruction (R403) -/
  entry_room : p.loadBase + 2 ≤ p.memSize
  /-- no PC that R27 bounds leaves 16 bits -/
  pc_fits : p.memSize + 2 < 2 ^ 16
  /-- "total memory minus the base offset" (R7) -/
  maxProgram : p.maxProgram = p.memSize - p.loadBase
  /-- eight pixels to a byte (R35) -/
  fbBytes : p.fbBytes = p.dispW * p.dispH / 8
  /-- a row of the display is whole bytes (R35) -/
  dispW_bytes : p.dispW % 8 = 0
  /-- the 8 columns of a sprite do not meet (R101) -/
  dispW_room : 8 ≤ p.dispW
  /-- nor do its at most 15 rows (R101) -/
  dispH_room : 15 ≤ p.dispH

/-- The configuration of a core: parameters for which the rules make sense. -/
structure Config extends Parameters where
  valid : toParameters.Valid
  deriving DecidableEq, Repr

namespace Config

/-- The types of Word.lean have the widths and counts of every configuration. -/
theorem types_have_these_widths (c : Config) :
    Byte = BitVec c.regBits ∧ Reg = Fin c.nregs ∧ Word = BitVec c.iBits ∧ Word = BitVec c.pcBits ∧
    Word = BitVec (8 * c.insnBytes) ∧ Key = Fin c.nkeys := by
  rw [c.valid.regBits, c.valid.nregs, c.valid.iBits, c.valid.pcBits, c.valid.insnBytes, c.valid.nkeys]
  exact ⟨rfl, rfl, rfl, rfl, rfl, rfl⟩

/-- The customary font, the value R36 gives `FONT`. -/
def customaryFont : List Byte :=
  ([0xF0, 0x90, 0x90, 0x90, 0xF0] ++ [0x20, 0x60, 0x20, 0x20, 0x70] ++
   [0xF0, 0x10, 0xF0, 0x80, 0xF0] ++ [0xF0, 0x10, 0xF0, 0x10, 0xF0]) ++
  ([0x90, 0x90, 0xF0, 0x10, 0x10] ++ [0xF0, 0x80, 0xF0, 0x10, 0xF0] ++
   [0xF0, 0x80, 0xF0, 0x90, 0xF0] ++ [0xF0, 0x10, 0x20, 0x40, 0x40]) ++
  ([0xF0, 0x90, 0xF0, 0x90, 0xF0] ++ [0xF0, 0x90, 0xF0, 0x10, 0xF0] ++
   [0xF0, 0x90, 0xF0, 0x90, 0x90] ++ [0xE0, 0x90, 0xE0, 0x90, 0xE0]) ++
  ([0xF0, 0x80, 0x80, 0x80, 0xF0] ++ [0xE0, 0x90, 0x90, 0x90, 0xE0] ++
   [0xF0, 0x80, 0xF0, 0x80, 0xF0] ++ [0xF0, 0x80, 0xF0, 0x80, 0x80])

/-- The values of R7's table. -/
def standard : Config where
  regBits := 8
  nregs := 16
  iBits := 16
  pcBits := 16
  memSize := 0xE90
  loadBase := 0x200
  maxProgram := 0xC90
  stackDepth := 12
  dispW := 64
  dispH := 32
  fbBytes := 256
  fontGlyphs := 16
  glyphBytes := 5
  fontBase := 0x000
  font := customaryFont
  nkeys := 16
  insnBytes := 2
  timerHz := 60
  cpuHz := none
  valid := by constructor <;> decide

/-- FREE VALUE: the host's answer to `is_key_down(k)` at the n-th host event, where no answer is scripted in the state
(R320, decision D28: a host input with no law). -/
opaque hostKeyDown : Nat → Key → Bool

/-- FREE VALUE: the host's answer to `get_key_blocking()` at the n-th host event, where none is scripted
(R321, decisions D17 and D36: any key, or `none`). -/
opaque hostGetKey : Nat → Option Key

/-- FREE VALUE: the random byte of the n-th host event, where none is scripted (R323, decision D20: no distribution). -/
opaque rand8 : Nat → Byte

end Config

end Sys2Proof
end

