-- ==== Sys2Proof/Machine/State.lean ====
section
/-! DEFINITION. The state of the core as plain data (10_state.md R20 to R43), the reasons a step stops, and the state
right after creation (R43, R401). -/

namespace Sys2Proof.Machine

/-- The six kinds of fault (R300). -/
inductive FaultKind where
  | invalidOpcode | stackOverflow | stackUnderflow | memoryBounds | pcMisaligned | keyRange
  deriving DecidableEq, Repr

/-- The numeric code of a kind (R300, decision D4). -/
def FaultKind.code (k : FaultKind) : Nat :=
  match k with
  | .invalidOpcode => 1
  | .stackOverflow => 2
  | .stackUnderflow => 3
  | .memoryBounds => 4
  | .pcMisaligned => 5
  | .keyRange => 6

/-- A fault record (R301). Its `code` is its kind's, `FaultKind.code`. -/
structure FaultRecord where
  kind : FaultKind
  /-- the address of the faulting instruction, or the PC fetched from -/
  pc : Word
  /-- the instruction word, `none` where no word was read -/
  word : Option Word
  /-- the lowest out-of-range address, for `memoryBounds` only; an address is an unbounded natural (R52) -/
  addr : Option Nat
  /-- the offending V[x], for `keyRange` only -/
  key : Option Byte
  deriving DecidableEq, Repr

/-- What passes between the core and its host during an instruction step (R320 to R323). -/
inductive HostEvent where
  /-- the output event `HostRequestRedraw()` (R322) -/
  | redraw
  /-- a query `HostKeyDown(k)` and its answer (R320) -/
  | keyDown (k : Key) (answer : Bool)
  /-- a query `HostGetKey()` and its answer (R321) -/
  | getKey (answer : Option Key)
  /-- a draw `Rand8()` (R323) -/
  | rand (byte : Byte)
  deriving DecidableEq, Repr

/-- THE MODEL'S OWN, not state of the spec: the host's side of the interface as plain data. The first four fields are the
host's coming moves; where a list of answers is used up, the answer is a free value of Config. `events` is what has passed,
newest first. -/
structure HostPort where
  /-- the ticks the host applies before each coming instruction step (R206); used up, it applies none -/
  dueTicks : List Nat
  /-- its coming answers to `HostKeyDown` -/
  keyDown : List Bool
  /-- its coming answers to `HostGetKey` -/
  getKey : List (Option Key)
  /-- the coming draws of `Rand8` -/
  rand : List Byte
  /-- the host events so far, newest first; its length numbers the free values -/
  events : List HostEvent
  deriving DecidableEq, Repr

/-- The cells of `memory` that differ from what an unlisted address reads as (Machine/Memory.lean). -/
abbrev Memory := List Host.Cell

/-- The framebuffer: DISP_H rows, the top one first, each of DISP_W one-bit pixels, the leftmost first (R34). -/
abbrev Framebuffer := List (List Bool)

/-- The state aggregate (R20), with the configuration it was created with and the model's own host part. -/
structure State where
  /-- the parameters of R7: fixed for a core, and changed by no step -/
  config : Config
  /-- V0 to VF (R21) -/
  v : Vector Byte 16
  /-- the address register I (R28) -/
  i : Word
  /-- the program counter (R24) -/
  pc : Word
  /-- the delay timer (R29) -/
  dt : Byte
  /-- the sound timer (R30) -/
  st : Byte
  /-- the call stack's STACK_DEPTH entries, those at an index ≥ SP stale (R31); that there are STACK_DEPTH of them is part
  of the invariant `Inv` -/
  stack : List Word
  /-- the count of valid entries, 0 to STACK_DEPTH (R31) -/
  sp : Nat
  /-- the framebuffer FB (R34); that it has DISP_H rows of DISP_W pixels is part of the invariant `Inv` -/
  fb : Framebuffer
  /-- `memory` (R37, R50) -/
  mem : Memory
  /-- "transient flag signaling the engine executed a key-wait instruction this step" (R38) -/
  wasBlocking : Bool
  /-- the fault latch (R39) -/
  fault : Option FaultRecord
  /-- the model's own: the host's side of the interface -/
  host : HostPort
  deriving DecidableEq, Repr

/-- Why a step has no next state. -/
inductive Fault where
  /-- Raised by `instructionStep` alone: the fault latch is set, so no instruction step is enabled (R39, R305, R308).
  Safe: the spec says the core stays faulted. -/
  | latched (record : FaultRecord)
  deriving DecidableEq, Repr

/-- Why an instruction has no meaning. -/
inductive Refusal where
  /-- Raised only by an arm of `exec` whose instruction has no meaning yet; none is left. Safe: the run stops. -/
  | notModelled (mnemonic : String)
  deriving DecidableEq, Repr

/-- The host at creation: nothing scripted, nothing passed (the model's own choice). -/
def HostPort.initial : HostPort := { dueTicks := [], keyDown := [], getKey := [], rand := [], events := [] }

/-- The state after creation with a configuration and before a program is loaded (R43, R401): PC is 0 until the load
(R402). Memory lists nothing: an unlisted address reads as creation leaves it, the font or 0. -/
def State.created (c : Config) : State :=
  { config := c
    v := Vector.replicate 16 0
    i := 0
    pc := 0
    dt := 0
    st := 0
    stack := List.replicate c.stackDepth 0
    sp := 0
    fb := List.replicate c.dispH (List.replicate c.dispW false)
    mem := []
    wasBlocking := false
    fault := none
    host := HostPort.initial }

/-- The machine right after reset: creation (R400) with the source's parameters. -/
def State.reset : State := State.created Config.standard

end Sys2Proof.Machine
end

