-- ==== Sys2Proof/Machine/Memory.lean ====
section
/-! DEFINITION. The core's one address space (20_memory.md): reading and writing bytes, the range check, and the canonical
form of the cells, for any configuration. Addresses are unbounded naturals, neither wrapped nor masked (R52). -/

namespace Sys2Proof.Machine

/-- What an address that lists no cell reads as: what creation leaves there, FONT at FONT_BASE and 0 elsewhere
(R36, R43, R401). -/
def unlistedByte (c : Config) (a : Nat) : Byte :=
  if a < c.fontBase then 0 else c.font.getD (a - c.fontBase) 0

/-- One byte of memory, `MemRead(a, 1)` past its bounds check (R52). -/
def readByte (c : Config) (m : Memory) (a : Nat) : Byte :=
  match m with
  | [] => unlistedByte c a
  | (k, b) :: rest => if k = a then b else readByte c rest a

/-- The cells without those at an address. -/
def eraseCell (m : Memory) (a : Nat) : Memory :=
  match m with
  | [] => []
  | (k, b) :: rest => if k = a then eraseCell rest a else (k, b) :: eraseCell rest a

/-- A cell put before the first one at a higher address. -/
def insertCell (m : Memory) (a : Nat) (b : Byte) : Memory :=
  match m with
  | [] => [(a, b)]
  | (k, d) :: rest => if a < k then (a, b) :: (k, d) :: rest else (k, d) :: insertCell rest a b

/-- `MemWrite(a, 1, b)` past its bounds check (R52). Writing what an unlisted address reads as removes the cell, so equal
memories are equal lists. -/
def writeByte (c : Config) (m : Memory) (a : Nat) (b : Byte) : Memory :=
  if b = unlistedByte c a then eraseCell m a else insertCell (eraseCell m a) a b

/-- The bytes written at a, a + 1, …, in ascending order (R57). -/
def writeBytes (c : Config) (m : Memory) (a : Nat) (bytes : List Byte) : Memory :=
  match bytes with
  | [] => m
  | b :: rest => writeBytes c (writeByte c m a b) (a + 1) rest

/-- The n bytes at a, a + 1, …, in ascending order (R57). -/
def readBytes (c : Config) (m : Memory) (a n : Nat) : List Byte :=
  match n with
  | 0 => []
  | n + 1 => readByte c m a :: readBytes c m (a + 1) n

/-- `CheckRange(a, n)` for n ≥ 1: the lowest out-of-range address of a .. a + n − 1, or `none` where the whole range is
memory (R53). -/
def rangeFault (c : Config) (a n : Nat) : Option Nat :=
  if a + n - 1 ≥ c.memSize then some (max a c.memSize) else none

/-- The canonical form from an address on: addresses strictly rising and below MEM_SIZE, no cell equal to what its address
reads as unlisted. -/
def wfFrom (c : Config) (lo : Nat) (m : Memory) : Bool :=
  match m with
  | [] => true
  | (k, b) :: rest => decide (lo ≤ k) && decide (k < c.memSize) && decide (b ≠ unlistedByte c k) && wfFrom c (k + 1) rest

/-- The canonical form of memory. -/
def Memory.wf (c : Config) (m : Memory) : Bool := wfFrom c 0 m

end Sys2Proof.Machine
end

