-- ==== Sys2Proof/Machine/Ops.lean ====
section
/-! DEFINITION. The shared operations: registers and PC, taking a fault, the call stack, the host's answers, the timers,
program load and fetch. -/

namespace Sys2Proof.Machine

/-- What every meaning answers. -/
abbrev Result := Host.Outcome State Fault Refusal

/-! ### Memory in a state -/

/-- The byte at an address, `MemRead(a, 1)` past its bounds check (R52). -/
def byteAt (s : State) (a : Nat) : Byte := readByte s.config s.mem a

/-- The n bytes at an address on (R57). -/
def bytesAt (s : State) (a n : Nat) : List Byte := readBytes s.config s.mem a n

/-- The bytes stored at an address on, `MemWrite` past its bounds check (R52, R57). -/
def storeBytes (a : Nat) (bytes : List Byte) (s : State) : State := { s with mem := writeBytes s.config s.mem a bytes }

/-! ### Registers and PC -/

/-- `V[r]` (R21). -/
def getV (s : State) (r : Reg) : Byte := s.v.get r

/-- `V[r] <- b` (R21). -/
def setV (r : Reg) (b : Byte) (s : State) : State := { s with v := s.v.set r b }

/-- `pc <- pc0 + 2`, the sequential next PC (R25). -/
def advance (s : State) : State := { s with pc := s.pc + BitVec.ofNat 16 s.config.insnBytes }

/-- `pc <- pc0 + 4` if the condition holds, else `pc0 + 2`: the conditional skip (R25). -/
def skipIf (c : Bool) (s : State) : State :=
  { s with pc := s.pc + BitVec.ofNat 16 (if c then 2 * s.config.insnBytes else s.config.insnBytes) }

/-- `pc <- target`, the redirect (R25, R411): no 2 is added. -/
def redirect (target : Word) (s : State) : State := { s with pc := target }

/-! ### Taking a fault (R39, R300 to R307)

The core has no trap vector, no saved register and no mode (R307): the whole entry is the latch. There is no return from
it, since no instruction clears the latch (R308). -/

/-- `raise`: latch the record and write nothing else, so PC stays at the faulting instruction (R39, R307). -/
def raise (r : FaultRecord) (s : State) : Result := .next { s with fault := some r }

/-- The record of an instruction's own fault: pc0 and the instruction's word (R301). -/
def recordOf (kind : FaultKind) (i : Instr) (s : State) : FaultRecord :=
  { kind := kind, pc := s.pc, word := some (encode i), addr := none, key := none }

/-- `raise MemoryBounds(pc0, word, a)` (R52, R301). -/
def raiseBounds (i : Instr) (a : Nat) (s : State) : Result := raise { recordOf .memoryBounds i s with addr := some a } s

/-- `raise KeyRange(pc0, word, k)` (R190, R301). -/
def raiseKeyRange (i : Instr) (k : Byte) (s : State) : Result := raise { recordOf .keyRange i s with key := some k } s

/-- `CheckRange(a, n)` before anything the instruction writes (R53, R54): the fault, or the rest of the instruction. -/
def checked (i : Instr) (a n : Nat) (s : State) (rest : State) : Result :=
  match rangeFault s.config a n with
  | some bad => raiseBounds i bad s
  | none => .next rest

/-! ### The call stack -/

/-- `stack[k]` (R31). -/
def stackEntry (s : State) (k : Nat) : Word := s.stack.getD k 0

/-- `Push(v)` where the stack is not full, `none` where it is (R32). -/
def push? (w : Word) (s : State) : Option State :=
  if s.sp < s.config.stackDepth then some { s with stack := s.stack.set s.sp w, sp := s.sp + 1 } else none

/-- `Pop()` where the stack is not empty, `none` where it is; the entry stays in the array, stale (R33, R120). -/
def pop? (s : State) : Option (Word × State) :=
  match s.sp with
  | 0 => none
  | k + 1 => some (stackEntry s k, { s with sp := k })

/-! ### The host's answers (R320 to R323)

An answer is the next one the state scripts; where none is left it is a free value of Config, numbered by the host events
so far, so that no two draws are the same value by construction. -/

/-- `HostKeyDown(k)`: the answer, and the host after it (R320). -/
def hostKeyDown (k : Key) (h : HostPort) : Bool × HostPort :=
  let answer := h.keyDown.headD (Config.hostKeyDown h.events.length k)
  (answer, { h with keyDown := h.keyDown.tail, events := .keyDown k answer :: h.events })

/-- `HostGetKey()` (R321). -/
def hostGetKey (h : HostPort) : Option Key × HostPort :=
  let answer := h.getKey.headD (Config.hostGetKey h.events.length)
  (answer, { h with getKey := h.getKey.tail, events := .getKey answer :: h.events })

/-- `Rand8()` (R323). -/
def rand8 (h : HostPort) : Byte × HostPort :=
  let byte := h.rand.headD (Config.rand8 h.events.length)
  (byte, { h with rand := h.rand.tail, events := .rand byte :: h.events })

/-- `HostRequestRedraw()`, an output event (R322). -/
def requestRedraw (h : HostPort) : HostPort := { h with events := .redraw :: h.events }

/-! ### The timers -/

/-- `tick(n)`: both timers go down by n and stop at 0; nothing else changes (R205). -/
def tick (n : Nat) (s : State) : State :=
  { s with dt := BitVec.ofNat 8 (s.dt.toNat - n), st := BitVec.ofNat 8 (s.st.toNat - n) }

/-- The ticks the host applies before the coming instruction step, taken from its plan (R206). -/
def applyDueTicks (s : State) : State :=
  match s.host.dueTicks with
  | [] => s
  | n :: rest => { tick n s with host := { s.host with dueTicks := rest } }

/-- `sound_on = (ST ≠ 0)` (R324). -/
def soundOn (s : State) : Bool := decide (s.st ≠ 0)

/-! ### Program load -/

/-- Program load: an image longer than MAX_PROGRAM is rejected (`none`, the state unchanged); otherwise its bytes go to
LOAD_BASE, PC to LOAD_BASE, and nothing else changes (R402). -/
def loadProgram? (image : List Byte) (s : State) : Option State :=
  if image.length > s.config.maxProgram then none
  else some (redirect (BitVec.ofNat 16 s.config.loadBase) (storeBytes s.config.loadBase image s))

/-! ### Fetch -/

/-- The word at an address, big-endian (R55). -/
def fetchWord (s : State) (a : Nat) : Word := wordOfBytes (byteAt s a) (byteAt s (a + 1))

/-- Instruction fetch: an odd PC faults before memory is read, then a PC whose second byte is no memory (R52, R56, R305,
R306). -/
def fetch (s : State) : Except FaultRecord Word :=
  if s.pc.toNat % s.config.insnBytes ≠ 0 then
    .error { kind := .pcMisaligned, pc := s.pc, word := none, addr := none, key := none }
  else if s.pc.toNat + 1 ≥ s.config.memSize then
    .error { kind := .memoryBounds, pc := s.pc, word := none, addr := some (max s.pc.toNat s.config.memSize), key := none }
  else .ok (fetchWord s s.pc.toNat)

/-- `raise InvalidOpcode(pc0, word)` (R302). -/
def raiseInvalid (w : Word) (s : State) : Result :=
  raise { kind := .invalidOpcode, pc := s.pc, word := some w, addr := none, key := none } s

/-- Where `withFetchWord` puts an instruction: the PC where an instruction can be fetched from it, else LOAD_BASE. -/
def fetchableAddress (s : State) : Nat :=
  if s.pc.toNat % s.config.insnBytes ≠ 0 ∨ s.pc.toNat + 1 ≥ s.config.memSize then s.config.loadBase else s.pc.toNat

end Sys2Proof.Machine
end

