-- ==== Sys2Proof/Machine/Flags.lean ====
section
/-! DEFINITION. The values VF takes as a flag (10_state.md R22; 42_alu.md R142 to R158), and the order of the two writes. -/

namespace Sys2Proof.Machine

/-- A flag as VF holds it: 1 or 0. -/
def flagByte (b : Bool) : Byte := if b then 1 else 0

/-- ADD: 1 iff the unsigned sum exceeds 255 (R149). -/
def carryFlag (a b : Byte) : Byte := flagByte (decide (a.toNat + b.toNat > 255))

/-- SUB and, with its operands exchanged, SUBN: 1 iff no borrow occurs, minuend ≥ subtrahend (R150, R151). -/
def noBorrowFlag (minuend subtrahend : Byte) : Byte := flagByte (decide (minuend.toNat ≥ subtrahend.toNat))

/-- SHR: bit 0 before the shift (R152). -/
def shiftedOutRight (a : Byte) : Byte := a &&& 1

/-- SHL: bit 7 before the shift (R154). -/
def shiftedOutLeft (a : Byte) : Byte := a >>> 7 &&& 1

/-- A result to V[x] and then, "last write", the flag to V[F]; both were computed before either write (R142, decision D9). -/
def writeResultAndFlag (x : Reg) (result flag : Byte) (s : State) : State := setV vf flag (setV x result s)

end Sys2Proof.Machine
end

