-- ==== Sys2Proof/Machine/Alu.lean ====
section
/-! DEFINITION. The ALU family (42_alu.md): unsigned 8-bit arithmetic, wrapping mod 256 (R158). None of these faults, and
each ends at pc0 + 2. Both operands are read before any write (R142). -/

namespace Sys2Proof.Machine

/-- A result to V[x] and no flag (R140 to R148). -/
def aluPlain (x : Reg) (result : Byte) (s : State) : Result := .next (advance (setV x result s))

/-- A result to V[x] and a flag to VF (R142). -/
def aluFlagged (x : Reg) (result flag : Byte) (s : State) : Result :=
  .next (advance (writeResultAndFlag x result flag s))

/-- MOV Vx,kk (R140). -/
def execMovImm (x : Reg) (kk : Byte) (s : State) : Result := aluPlain x kk s

/-- ADD Vx,kk (R141): "add-immediate does not touch the carry flag". -/
def execAddImm (x : Reg) (kk : Byte) (s : State) : Result := aluPlain x (getV s x + kk) s

/-- MOV Vx,Vy (R145). -/
def execMovReg (x y : Reg) (s : State) : Result := aluPlain x (getV s y) s

/-- OR Vx,Vy (R146): VF is not written (decision D8). -/
def execOrReg (x y : Reg) (s : State) : Result := aluPlain x (getV s x ||| getV s y) s

/-- AND Vx,Vy (R147). -/
def execAndReg (x y : Reg) (s : State) : Result := aluPlain x (getV s x &&& getV s y) s

/-- XOR Vx,Vy (R148). -/
def execXorReg (x y : Reg) (s : State) : Result := aluPlain x (getV s x ^^^ getV s y) s

/-- ADD Vx,Vy (R149). -/
def execAddReg (x y : Reg) (s : State) : Result :=
  aluFlagged x (getV s x + getV s y) (carryFlag (getV s x) (getV s y)) s

/-- SUB Vx,Vy (R150). -/
def execSub (x y : Reg) (s : State) : Result :=
  aluFlagged x (getV s x - getV s y) (noBorrowFlag (getV s x) (getV s y)) s

/-- SHR Vx,Vy (R152): V[y] is not read, `_y` is ignored (R76). -/
def execShr (x _y : Reg) (s : State) : Result := aluFlagged x (getV s x >>> 1) (shiftedOutRight (getV s x)) s

/-- SUBN Vx,Vy (R151). -/
def execSubn (x y : Reg) (s : State) : Result :=
  aluFlagged x (getV s y - getV s x) (noBorrowFlag (getV s y) (getV s x)) s

/-- SHL Vx,Vy (R154): V[y] is not read, `_y` is ignored (R76). -/
def execShl (x _y : Reg) (s : State) : Result := aluFlagged x (getV s x <<< 1) (shiftedOutLeft (getV s x)) s

/-- RND Vx,kk (R156): a fresh draw at each execution (decision D20). -/
def execRnd (x : Reg) (kk : Byte) (s : State) : Result :=
  aluPlain x ((rand8 s.host).1 &&& kk) { s with host := (rand8 s.host).2 }

end Sys2Proof.Machine
end

