-- ==== Sys2Proof/Machine/Operands.lean ====
section
/-! DEFINITION. The operand forms (30_encoding.md R73; 43_index_memory.md): what an instruction's operand fields stand for
in a state. -/

namespace Sys2Proof.Machine

/-- The byte address that I holds, a natural (R28, R52). -/
def indexAddress (s : State) : Nat := s.i.toNat

/-- The target of JMP V0,nnn: `zext_16(nnn) + zext_16(V[0])`, neither masked to 12 bits nor wrapped (R127, decision D32). -/
def indexedTarget (nnn : Addr12) (s : State) : Word := zext12 nnn + zext8 (getV s 0)

/-- The address of a hexadecimal digit's glyph: `FONT_BASE + 5 · (V[x] & 0xF)`, 5 being GLYPH_BYTES (R172). -/
def glyphAddress (b : Byte) (s : State) : Word :=
  BitVec.ofNat 16 (s.config.fontBase + s.config.glyphBytes * (b &&& 0xF).toNat)

/-- The three BCD digits of a byte, hundreds first (R174). -/
def bcdDigits (b : Byte) : List Byte :=
  [BitVec.ofNat 8 (b.toNat / 100), BitVec.ofNat 8 (b.toNat / 10 % 10), BitVec.ofNat 8 (b.toNat % 10)]

/-- The bytes of V0 to Vx, inclusive (R175). -/
def registersUpTo (x : Reg) (s : State) : List Byte := s.v.toList.take (x + 1)

/-- V0 to Vx replaced by the bytes at an address on; the others as they are (R176). -/
def loadRegisters (x : Reg) (a : Nat) (s : State) : Vector Byte 16 :=
  Vector.ofFn fun r => if r ≤ x then byteAt s (a + r) else s.v.get r

/-- The column DRW starts at, `V[x] mod 64`, 64 being DISP_W (R101). -/
def startColumn (x : Reg) (s : State) : Nat := (getV s x).toNat % s.config.dispW

/-- The row DRW starts at, `V[y] mod 32`, 32 being DISP_H (R101). -/
def startLine (y : Reg) (s : State) : Nat := (getV s y).toNat % s.config.dispH

/-- DRW's sprite: the n bytes at I (R101). -/
def spriteRows (n : Rows) (s : State) : List Byte := bytesAt s (indexAddress s) n

/-- The key number in V[x] where the keypad has that key, `none` where V[x] > 15 (R190). -/
def keyOperand? (x : Reg) (s : State) : Option Key :=
  if h : (getV s x).toNat < s.config.nkeys then some ⟨(getV s x).toNat, by rw [s.config.valid.nkeys] at h; exact h⟩
  else none

end Sys2Proof.Machine
end

