-- ==== Sys2Proof/Machine/ControlFlow.lean ====
section
/-! DEFINITION. The control-flow family: RET, JMP, CALL, the register skips and JMP V0 (41_control_flow.md). -/

namespace Sys2Proof.Machine

/-- RET (R120): the popped address, with no 2 added. -/
def execRet (s : State) : Result :=
  match pop? s with
  | some (target, t) => .next (redirect target t)
  | none => raise (recordOf .stackUnderflow .ret s) s

/-- JMP nnn (R121). -/
def execJmp (nnn : Addr12) (s : State) : Result := .next (redirect (zext12 nnn) s)

/-- CALL nnn (R122): pushes the address after the call. -/
def execCall (nnn : Addr12) (s : State) : Result :=
  match push? (advance s).pc s with
  | some t => .next (redirect (zext12 nnn) t)
  | none => raise (recordOf .stackOverflow (.call nnn) s) s

/-- SE Vx,kk (R123). -/
def execSeImm (x : Reg) (kk : Byte) (s : State) : Result := .next (skipIf (getV s x == kk) s)

/-- SNE Vx,kk (R124). -/
def execSneImm (x : Reg) (kk : Byte) (s : State) : Result := .next (skipIf (getV s x != kk) s)

/-- SE Vx,Vy (R125). -/
def execSeReg (x y : Reg) (s : State) : Result := .next (skipIf (getV s x == getV s y) s)

/-- SNE Vx,Vy (R126). -/
def execSneReg (x y : Reg) (s : State) : Result := .next (skipIf (getV s x != getV s y) s)

/-- JMP V0,nnn (R127): I is not changed. -/
def execJmpV0 (nnn : Addr12) (s : State) : Result := .next (redirect (indexedTarget nnn s) s)

end Sys2Proof.Machine
end

