-- ==== Sys2Proof/Machine/Framebuffer.lean ====
section
/-! DEFINITION. The framebuffer's pixels, its bytes as the host sees them, and the sprite blit
(10_state.md R34, R35; 40_display.md R101). -/

namespace Sys2Proof.Machine

/-- A column number mod DISP_W (R101). -/
def column (config : Config) (n : Nat) : Nat := n % config.dispW

/-- A row number mod DISP_H (R101). -/
def line (config : Config) (n : Nat) : Nat := n % config.dispH

/-- The pixel `FB[px][py]` (R34). -/
def pixel (fb : Framebuffer) (px py : Nat) : Bool := (fb.getD py []).getD px false

/-- `FB[px][py] <- FB[px][py] ^ 1`. -/
def flipPixel (fb : Framebuffer) (px py : Nat) : Framebuffer := fb.modify py fun row => row.modify px not

/-- The framebuffer with every pixel 0 (R100). -/
def clearedFramebuffer (config : Config) : Framebuffer :=
  List.replicate config.dispH (List.replicate config.dispW false)

/-- Byte k of the framebuffer as the host reads it, its most significant bit the leftmost of its pixels: pixel (x, y) is bit
7 − (x mod 8) of byte y · (DISP_W / 8) + x div 8 (R35, decision D13). -/
def fbByte (config : Config) (fb : Framebuffer) (k : Nat) : Byte :=
  BitVec.ofFnBE fun i : Fin 8 => pixel fb (8 * (k % (config.dispW / 8)) + i) (k / (config.dispW / 8))

/-- The FB_BYTES bytes of the framebuffer (R35). -/
def fbImage (config : Config) (fb : Framebuffer) : List Byte := (List.range config.fbBytes).map (fbByte config fb)

/-- The framebuffer and the collision so far (R101). -/
abbrev Blit := Framebuffer × Bool

/-- One set sprite pixel: `if FB[px][py] = 1: collide <- 1`, then the XOR, at the wrapped position (R101). -/
def blitPixel (config : Config) (x0 y0 r c : Nat) (acc : Blit) : Blit :=
  let px := column config (x0 + c)
  let py := line config (y0 + r)
  (flipPixel acc.1 px py, acc.2 || pixel acc.1 px py)

/-- One row of the sprite, columns c, c + 1, … for as many as `left`: bit 7 is the leftmost (R101, decision D12). -/
def blitRowFrom (config : Config) (x0 y0 r : Nat) (bits : Byte) (c left : Nat) (acc : Blit) : Blit :=
  match left with
  | 0 => acc
  | left + 1 =>
    blitRowFrom config x0 y0 r bits (c + 1) left (if bits.getLsbD (7 - c) then blitPixel config x0 y0 r c acc else acc)

/-- The rows of the sprite from row r on (R101). -/
def blitFrom (config : Config) (x0 y0 r : Nat) (rows : List Byte) (acc : Blit) : Blit :=
  match rows with
  | [] => acc
  | bits :: rest => blitFrom config x0 y0 (r + 1) rest (blitRowFrom config x0 y0 r bits 0 8 acc)

/-- The whole blit: the new framebuffer, and whether a pixel that was 1 was hit (R101). -/
def blit (config : Config) (fb : Framebuffer) (x0 y0 : Nat) (rows : List Byte) : Blit :=
  blitFrom config x0 y0 0 rows (fb, false)

end Sys2Proof.Machine
end

