-- ==== Sys2Proof/Machine/Display.lean ====
section
/-! DEFINITION. The display family: CLS and DRW (40_display.md). -/

namespace Sys2Proof.Machine

/-- CLS (R100). -/
def execCls (s : State) : Result := .next (advance { s with fb := clearedFramebuffer s.config })

/-- DRW's effect past its range check: the coordinates are V[x] and V[y] before any write, VF the collision, written last
(R101, decisions D10 and D12). -/
def drawn (x y : Reg) (n : Rows) (s : State) : State :=
  let b := blit s.config s.fb (startColumn x s) (startLine y s) (spriteRows n s)
  setV vf (flagByte b.2) { s with fb := b.1 }

/-- DRW Vx,Vy,n: "0 rows" reads no memory and checks no bounds (R101, decision D11). -/
def execDrw (x y : Reg) (n : Rows) (s : State) : Result :=
  if n.val = 0 then .next (advance (drawn x y n s))
  else checked (.drw x y n) (indexAddress s) n s (advance (drawn x y n s))

end Sys2Proof.Machine
end

