-- ==== Sys2Proof/Machine/IndexMemory.lean ====
section
/-! DEFINITION. The address-register and memory family (43_index_memory.md). No memory access changes I (decision D7), and
every range is checked whole before anything is written (R53, R54). -/

namespace Sys2Proof.Machine

/-- MOV I,nnn (R170). -/
def execMovI (nnn : Addr12) (s : State) : Result := .next (advance { s with i := zext12 nnn })

/-- ADD I,Vx (R171): mod 2^16, no 12-bit mask; VF is not written (decision D6). -/
def execAddI (x : Reg) (s : State) : Result := .next (advance { s with i := s.i + zext8 (getV s x) })

/-- MOV F,Vx (R172). -/
def execMovF (x : Reg) (s : State) : Result := .next (advance { s with i := glyphAddress (getV s x) s })

/-- MOV B,Vx (R174). -/
def execMovB (x : Reg) (s : State) : Result :=
  checked (.movB x) (indexAddress s) 3 s
    (advance (storeBytes (indexAddress s) (bcdDigits (getV s x)) s))

/-- MOV [I],Vx (R175). -/
def execStoreRegs (x : Reg) (s : State) : Result :=
  checked (.storeRegs x) (indexAddress s) (x + 1) s
    (advance (storeBytes (indexAddress s) (registersUpTo x s) s))

/-- MOV Vx,[I] (R176). -/
def execLoadRegs (x : Reg) (s : State) : Result :=
  checked (.loadRegs x) (indexAddress s) (x + 1) s (advance { s with v := loadRegisters x (indexAddress s) s })

end Sys2Proof.Machine
end

