-- ==== Sys2Proof/Machine/KeysTimers.lean ====
section
/-! DEFINITION. The key and timer family (44_keys_timers.md). -/

namespace Sys2Proof.Machine

/-- A key skip: a V[x] that is no key faults before the host is asked; otherwise the host's one answer decides
(R190, R191, decisions D16 and D28). -/
def keySkip (i : Instr) (x : Reg) (skipsOn : Bool) (s : State) : Result :=
  match keyOperand? x s with
  | none => raiseKeyRange i (getV s x) s
  | some k => .next (skipIf ((hostKeyDown k s.host).1 == skipsOn) { s with host := (hostKeyDown k s.host).2 })

/-- SKP Vx (R190): skip if the key is down. -/
def execSkp (x : Reg) (s : State) : Result := keySkip (.skp x) x true s

/-- SKNP Vx (R191): skip if the key is up. -/
def execSknp (x : Reg) (s : State) : Result := keySkip (.sknp x) x false s

/-- MOV Vx,DT (R192). -/
def execMovVxDT (x : Reg) (s : State) : Result := .next (advance (setV x s.dt s))

/-- MOV DT,Vx (R193). -/
def execMovDTVx (x : Reg) (s : State) : Result := .next (advance { s with dt := getV s x })

/-- MOV ST,Vx (R194). -/
def execMovSTVx (x : Reg) (s : State) : Result := .next (advance { s with st := getV s x })

/-- MOV Vx,K (R204): the redraw event, then the flag, then the host's answer: a key completes the instruction, `none`
holds PC so that the same instruction executes again. -/
def execMovVxK (x : Reg) (s : State) : Result :=
  let answered := hostGetKey (requestRedraw s.host)
  let waited := { s with host := answered.2, wasBlocking := true }
  match answered.1 with
  | some k => .next (advance (setV x (BitVec.ofNat 8 k) waited))
  | none => .next waited

end Sys2Proof.Machine
end

