-- ==== Sys2Proof/Machine/Step.lean ====
section
/-! DEFINITION. One instruction step (60_exceptions.md R305), the core's step, and how an instruction is put where the
next step fetches it. -/

namespace Sys2Proof.Machine

/-- `InstructionStep()` (R305): fetch, decode, execute; a fault at any point only sets the latch, and with the latch set no
step is enabled (R39). -/
def instructionStep (s : State) : Host.Outcome State Fault Refusal :=
  match s.fault with
  | some r => .fault (.latched r)
  | none =>
    match fetch s with
    | .error r => raise r s
    | .ok w =>
      match decode w with
      | .error _ => raiseInvalid w s
      | .ok i => exec i s

/-- One step: the ticks the host has planned before this instruction step (R206), then the instruction step. -/
def step (s : State) : Host.Outcome State Fault Refusal := instructionStep (applyDueTicks s)

/-- The state with an instruction, given as the opcode table numbers its bits, where the next step fetches: at PC. A state
that could fetch nothing is given what a fetch needs: PC at LOAD_BASE if PC is odd or past memory, no latched fault. -/
def State.withFetchWord (s : State) (nbits w : Nat) : State :=
  let word : Word := BitVec.ofNat 16 (w % 2 ^ nbits)
  { storeBytes (fetchableAddress s) [hiByte word, loByte word] s with
    pc := BitVec.ofNat 16 (fetchableAddress s)
    fault := none }

end Sys2Proof.Machine
end

