-- ==== Sys2Proof/Machine/Assembly.lean ====
section
/-! DEFINITION. The textual form of programs (30_encoding.md R95 to R99), past the tokenizer, which is out of scope (R6):
lines, labels and constants, their words, and the text an instruction is printed as. -/

namespace Sys2Proof.Machine

/-- One line of a program text, its comment dropped (R95). -/
inductive SourceLine where
  /-- `NAME = <number>` -/
  | constant (name : String) (value : Nat)
  /-- a label definition, an instruction, both or neither (decision D23) -/
  | code (label : Option String) (instr : Option AsmInstr)
  deriving DecidableEq, Repr

/-- What each name stands for; a label's value is the code address it stands at (R95). -/
def symbolsFrom (c : Config) (address : Nat) (lines : List SourceLine) : List (String × Nat) :=
  match lines with
  | [] => []
  | .constant name value :: rest => (name, value) :: symbolsFrom c address rest
  | .code label instr :: rest =>
    (match label with
      | some name => [(name, address)]
      | none => []) ++ symbolsFrom c (if instr.isSome then address + c.insnBytes else address) rest

/-- The names of a program: "the first instruction is at LOAD_BASE, and each instruction adds 2" (R95). -/
def symbols (c : Config) (lines : List SourceLine) : List (String × Nat) := symbolsFrom c c.loadBase lines

/-- A name replaced by its value (R96). -/
def resolveOperand (names : List (String × Nat)) (o : Operand) : Option Operand :=
  match o with
  | .name text => (names.lookup text).map .num
  | other => some other

/-- The names of an instruction replaced by their values (R96). -/
def resolve (names : List (String × Nat)) (a : AsmInstr) : Option AsmInstr :=
  (a.operands.mapM (resolveOperand names)).map fun operands => { a with operands := operands }

/-- The instruction of a line, `none` on a line without one. -/
def SourceLine.instr? (l : SourceLine) : Option AsmInstr :=
  match l with
  | .constant _ _ => none
  | .code _ instr => instr

/-- The words of a program; `none` where any line is a diagnostic. Labels may be used before their definition (R95);
directives emit no bytes (R99). A name defined twice is a diagnostic (the model's own choice). -/
def assemble (c : Config) (lines : List SourceLine) : Option (List Word) :=
  let names := symbols c lines
  if (names.map Prod.fst).Nodup then
    (lines.filterMap SourceLine.instr?).mapM fun a => ((resolve names a).bind AsmInstr.toInstr?).map encode
  else none

/-- A program's image: "raw big-endian 16-bit instruction words, no header" (R55). -/
def imageOfWords (words : List Word) : List Byte := words.flatMap fun w => [hiByte w, loByte w]

/-- The spelling of a mnemonic (R97). -/
def Mnemonic.spelling (m : Mnemonic) : String :=
  match m with
  | .CLS => "CLS"
  | .RET => "RET"
  | .JMP => "JMP"
  | .CALL => "CALL"
  | .SE => "SE"
  | .SNE => "SNE"
  | .MOV => "MOV"
  | .ADD => "ADD"
  | .OR => "OR"
  | .AND => "AND"
  | .XOR => "XOR"
  | .SUB => "SUB"
  | .SHR => "SHR"
  | .SUBN => "SUBN"
  | .SHL => "SHL"
  | .RND => "RND"
  | .DRW => "DRW"
  | .SKP => "SKP"
  | .SKNP => "SKNP"

/-- An operand's text: a register as `V<n>`, its index in decimal (R96, R98); a number in decimal. -/
def Operand.text (o : Operand) : String :=
  match o with
  | .reg index => "V" ++ toString index
  | .num value => toString value
  | .name text => text
  | .I => "I"
  | .indI => "[I]"
  | .DT => "DT"
  | .ST => "ST"
  | .K => "K"
  | .F => "F"
  | .B => "B"

/-- "`MNEMONIC operand1, operand2, ...`" (R98). -/
def AsmInstr.text (a : AsmInstr) : String :=
  match a.operands with
  | [] => Mnemonic.spelling a.mnemonic
  | operands => Mnemonic.spelling a.mnemonic ++ " " ++ ", ".intercalate (operands.map Operand.text)

/-- Disassembly, word for word; a word that does not decode is a diagnostic (`none`) "and disassembly continues" (R98). -/
def disassemble (words : List Word) : List (Option String) :=
  words.map fun w =>
    match decode w with
    | .ok i => some (AsmInstr.text i.toAsm)
    | .error _ => none

end Sys2Proof.Machine
end

