-- ==== Sys2Proof/Machine/HostCalls.lean ====
section
/-! DEFINITION. What the host may do to the core (60_exceptions.md R320 to R326): creation and the load, the calls
`step(state, n)` and `tick(state, n)`, and sessions of them. -/

namespace Sys2Proof.Machine

/-- What a call answers its host (R325, R326). -/
inductive Reply where
  /-- `Ok` -/
  | ok
  /-- `Err(fault)`: the distinguished result of a faulted core (R307, R325) -/
  | err (record : FaultRecord)
  /-- the image is too long (R402) -/
  | loadRejected
  /-- an instruction without a meaning; no instruction is one -/
  | noMeaning (r : Refusal)
  deriving DecidableEq, Repr

/-- Up to n instruction steps, stopping early after one that faults and after one that executed MOV Vx,K, which is the one
that left `was_blocking` true (R325, decision D18). -/
def runSteps (n : Nat) (s : State) : State × Reply :=
  match n with
  | 0 => (s, match s.fault with
      | some r => .err r
      | none => .ok)
  | n + 1 =>
    match instructionStep s with
    | .fault (.latched r) => (s, .err r)
    | .refused r => (s, .noMeaning r)
    | .next t =>
      match t.fault with
      | some r => (t, .err r)
      | none => if t.wasBlocking then (t, .ok) else runSteps n t

/-- The host call `step(state, n)`: `was_blocking` is cleared first (R325). -/
def stepCall (n : Nat) (s : State) : State × Reply := runSteps n { s with wasBlocking := false }

/-- The host's moves after the load (R326). There is no load among them, so the host has no move that writes V, I, PC, the
stack, FB or memory after the load (decision D35). -/
inductive HostCall where
  | step (n : Nat)
  | tick (n : Nat)
  deriving DecidableEq, Repr

/-- One call of the host (R326). -/
def hostCall (c : HostCall) (s : State) : State × Reply :=
  match c with
  | .step n => stepCall n s
  | .tick n => (tick n s, .ok)

/-- The host's calls one after another: any interleaving of instruction steps and ticks (R206). That the
host goes on calling is no part of it: `HostFair` of Safety.lean says so (R421). -/
def hostCalls (cs : List HostCall) (s : State) : State :=
  match cs with
  | [] => s
  | c :: rest => hostCalls rest (hostCall c s).1

/-- The load as the host sees it: `Ok`, or a rejection that leaves the state unchanged (R326, R402). -/
def loadCall (image : List Byte) (s : State) : State × Reply :=
  match loadProgram? image s with
  | some t => (t, .ok)
  | none => (s, .loadRejected)

/-- The launch state: creation, then the load (R400, R404, R405); `none` where the image is rejected (R402). -/
def launch? (c : Config) (image : List Byte) : Option State := loadProgram? image (State.created c)

/-- Loads tried one after another on a created state: those that are rejected leave it as it is, the first that is not is
the one load. THE MODEL'S CHOICE (DESIGN CHOICE, assumption log 12): R326 and R402 do not say whether a rejected load counts
as the host's one load; here it does not, so the host may try again, and no step or tick comes before a load is accepted. -/
def firstAccepted? (c : Config) (images : List (List Byte)) : Option State := images.findSome? (launch? c)

/-- A session of the host (R326, R404): loads until one is accepted, then steps and ticks. No session loads again. -/
structure Session where
  config : Config
  images : List (List Byte)
  calls : List HostCall
  deriving DecidableEq, Repr

/-- The state a session ends in; `none` where no load is accepted, for then nothing runs (R403: "A model launches only after
a load"). -/
def Session.final? (session : Session) : Option State :=
  (firstAccepted? session.config session.images).map (hostCalls session.calls)

end Sys2Proof.Machine
end

