-- ==== Sys2Proof/Safety.lean ====
section
/-! DEFINITION. The terms statements are made in: what a part of the state keeps, the invariant of the core, the launch
state, and how a run can end. -/

namespace Sys2Proof.Machine

/-! ### Frames -/

/-- The parts of the state (R20), with the configuration and the model's own host part. -/
inductive Part where
  | config | v | i | pc | dt | st | stack | sp | fb | mem | wasBlocking | fault | host
  deriving DecidableEq, Repr

/-- A part holds in t what it holds in s. Memory is compared by reading every address. -/
def samePart (p : Part) (s t : State) : Prop :=
  match p with
  | .config => t.config = s.config
  | .v => ∀ r, getV t r = getV s r
  | .i => t.i = s.i
  | .pc => t.pc = s.pc
  | .dt => t.dt = s.dt
  | .st => t.st = s.st
  | .stack => t.stack = s.stack
  | .sp => t.sp = s.sp
  | .fb => t.fb = s.fb
  | .mem => ∀ a, byteAt t a = byteAt s a
  | .wasBlocking => t.wasBlocking = s.wasBlocking
  | .fault => t.fault = s.fault
  | .host => t.host = s.host

/-- Every part of the state but those listed is unchanged. -/
def KeepsExcept (changed : List Part) (s t : State) : Prop := ∀ p, p ∉ changed → samePart p s t

/-- The next state of an instruction that writes one V register and nothing else but PC, which goes to pc0 + 2. -/
def WritesReg (x : Reg) (b : Byte) (s t : State) : Prop :=
  (∀ r, getV t r = if r = x then b else getV s r) ∧ t.pc = s.pc + 2 ∧ KeepsExcept [.v, .pc] s t

/-- The next state of an instruction that writes a V register and then a flag to VF (R142): VF holds the flag even where
it is the destination, every third register is unchanged. -/
def WritesRegAndFlag (x : Reg) (b flag : Byte) (s t : State) : Prop :=
  (∀ r, getV t r = if r = vf then flag else if r = x then b else getV s r) ∧ t.pc = s.pc + 2 ∧ KeepsExcept [.v, .pc] s t

/-- The next state of an instruction that stores bytes at a, a + 1, … and changes nothing else but PC. -/
def StoresBytes (a : Nat) (bytes : List Byte) (s t : State) : Prop :=
  (∀ k, k < bytes.length → byteAt t (a + k) = bytes.getD k 0) ∧
  (∀ b, (b < a ∨ a + bytes.length ≤ b) → byteAt t b = byteAt s b) ∧
  t.pc = s.pc + 2 ∧ KeepsExcept [.mem, .pc] s t

/-- The next state of an instruction that raises a fault: the latch holds the record, nothing else changed (R39). -/
def RaisesOnly (r : FaultRecord) (s t : State) : Prop := t = { s with fault := some r }

/-- The record of an instruction's own memory fault on a range starting at I (R53). -/
def boundsRecord (i : Instr) (s : State) : FaultRecord :=
  { kind := .memoryBounds, pc := s.pc, word := some (encode i), addr := some (max s.i.toNat s.config.memSize), key := none }

/-- The address an instruction has gone to is checked at the next fetch, not by the instruction: an odd PC faults, an even
one whose second byte is no memory faults otherwise (R26, R52, R306). -/
def FetchChecksTarget (t : State) : Prop :=
  (t.pc.toNat % 2 = 1 → instructionStep t = .next { t with fault := some ⟨.pcMisaligned, t.pc, none, none, none⟩ }) ∧
  (t.pc.toNat % 2 = 0 → t.pc.toNat + 1 ≥ t.config.memSize → instructionStep t =
    .next { t with fault := some ⟨.memoryBounds, t.pc, none, some (max t.pc.toNat t.config.memSize), none⟩ })

/-! ### The sprite as a picture -/

/-- Whether a sprite drawn at (x0, y0), wrapped on both axes, has a set bit at a pixel: row r of the sprite is the display
row (y0 + r) mod DISP_H, and bit 7 − c of it the column (x0 + c) mod DISP_W (R101). -/
def spriteCovers (config : Config) (rows : List Byte) (x0 y0 px py : Nat) : Prop :=
  ∃ r c, r < rows.length ∧ c < 8 ∧ (rows.getD r 0).getLsbD (7 - c) = true ∧
    (x0 + c) % config.dispW = px ∧ (y0 + r) % config.dispH = py

/-- Whether DRW Vx,Vy,n in a state covers a pixel: its sprite is the n bytes at I, drawn from
(V[x] mod DISP_W, V[y] mod DISP_H) with the values before the instruction (R101, decision D10). -/
def drwCovers (x y : Reg) (n : Rows) (s : State) (px py : Nat) : Prop :=
  spriteCovers s.config (bytesAt s s.i.toNat n) ((getV s x).toNat % s.config.dispW) ((getV s y).toNat % s.config.dispH) px py

/-! ### The call stack as a list -/

/-- The valid entries, the top first (R31). -/
def frames (s : State) : List Word := (s.stack.take s.sp).reverse

/-- The state with PC at an address: where a program has come to in between, by instructions that leave the stack alone. -/
def atPc (a : Word) (s : State) : State := { s with pc := a }

/-- CALLs at the given addresses, each with its target, one after another; `none` if one of them faults (R128). -/
def callsAt (calls : List (Word × Addr12)) (s : State) : Option State :=
  match calls with
  | [] => some s
  | (a, target) :: rest =>
    match exec (.call target) (atPc a s) with
    | .next t => if t.fault = none then callsAt rest t else none
    | _ => none

/-- k RETs one after another: the addresses they return to, in order, and the state after; `none` if one of them faults. -/
def returns (k : Nat) (s : State) : Option (List Word × State) :=
  match k with
  | 0 => some ([], s)
  | k + 1 =>
    match exec .ret s with
    | .next t => if t.fault = none then (returns k t).map fun p => (t.pc :: p.1, p.2) else none
    | _ => none

/-- Two states that differ at most in stale call-stack entries, those at an index ≥ SP (R31, decision D24). -/
def AgreeButStale (s t : State) : Prop :=
  t = { s with stack := t.stack } ∧ t.stack.length = s.stack.length ∧ ∀ k, k < s.sp → stackEntry t k = stackEntry s k

/-! ### The invariant -/

/-- What R301 says of the fields of a fault record, on a core with a given MEM_SIZE. -/
structure RecordShape (memSize : Nat) (r : FaultRecord) : Prop where
  addr_only : r.addr.isSome ↔ r.kind = .memoryBounds
  addr_outside : ∀ a, r.addr = some a → memSize ≤ a
  key_only : r.key.isSome ↔ r.kind = .keyRange
  key_outside : ∀ k, r.key = some k → 15 < k.toNat
  no_word : r.word = none ↔ r.kind = .pcMisaligned ∨ (r.kind = .memoryBounds ∧ memSize ≤ r.pc.toNat + 1)

/-- The call stack has its STACK_DEPTH entries, and SP counts no more than that (R31). -/
abbrev StackShape (s : State) : Prop := s.stack.length = s.config.stackDepth ∧ s.sp ≤ s.config.stackDepth

/-- The framebuffer has its DISP_H rows of DISP_W pixels (R34). -/
abbrev FbShape (config : Config) (fb : Framebuffer) : Prop :=
  fb.length = config.dispH ∧ ∀ row ∈ fb, row.length = config.dispW

/-- The invariant of the core: memory keeps its canonical form; the stack and the framebuffer have their shapes; PC and the
valid stack entries stay in the bounds of R27, the entries even (R26); a latched fault names the PC the core stopped at
(R39) and has the shape of R301. -/
structure Inv (s : State) : Prop where
  mem_wf : Memory.wf s.config s.mem = true
  stack_shape : StackShape s
  fb_shape : FbShape s.config s.fb
  pc_bound : s.pc.toNat ≤ max 0x10FE (s.config.memSize + 2)
  stack_entries : ∀ k, k < s.sp → (stackEntry s k).toNat % 2 = 0 ∧ (stackEntry s k).toNat ≤ s.config.memSize
  fault_pc : ∀ r, s.fault = some r → r.pc = s.pc
  fault_shape : ∀ r, s.fault = some r → RecordShape s.config.memSize r

/-! ### Runs, how they end, and on whom their progress rests

The core itself makes no progress: each instruction step and each tick is a call of the host. A run may therefore be in
progress for ever, at a key wait or in a loop that reads DT, only because the host stops calling. So a claim that a run ends,
that a DT wait ends or that a key wait ends names `HostFair` (R421); the definitions `EndedNormally`, `EndedWithFault` and
`InProgress` observe one state and promise nothing of the next. -/

/-- The word fetched at PC is a JMP to its own address (R332). -/
def AtSelfJump (s : State) : Prop :=
  fetch s = .ok (fetchWord s s.pc.toNat) ∧ ∃ nnn, decode (fetchWord s s.pc.toNat) = .ok (.jmp nnn) ∧ zext12 nnn = s.pc

/-- "A run is said to have ended normally" (R332). A claim that a run comes to this names `HostFair` (R421). -/
def EndedNormally (s : State) : Prop := s.fault = none ∧ AtSelfJump s

/-- "A run has ended with a fault" (R332). A claim that a run comes to this names `HostFair` (R421). -/
def EndedWithFault (s : State) : Prop := s.fault ≠ none

/-- "Anything else is a run still in progress" (R332). That it leaves this state needs `HostFair` (R421). -/
def InProgress (s : State) : Prop := ¬ EndedNormally s ∧ ¬ EndedWithFault s

/-- The state before the n-th call of an endless sequence of calls. -/
def stateAt (calls : Nat → HostCall) (s : State) (n : Nat) : State :=
  match n with
  | 0 => s
  | n + 1 => (hostCall (calls n) (stateAt calls s n)).1

/-- The next instruction step executes MOV Vx,K. -/
def AtKeyWait (x : Reg) (s : State) : Prop := s.fault = none ∧ fetch s = .ok (encode (.movVxK x))

/-- The host's answer to the key query of a MOV Vx,K executed now (R204: the redraw comes first). -/
def keyAnswer (s : State) : Option Key := (hostGetKey (requestRedraw s.host)).1

/-- Weak fairness of the host (R421): after every call it again calls `step` for at least one instruction step, again calls
`tick` for at least one tick, and, if the core waits at MOV Vx,K then, again answers with a key. -/
structure HostFair (calls : Nat → HostCall) (s : State) : Prop where
  keeps_stepping : ∀ n, ∃ m k, n ≤ m ∧ calls m = .step (k + 1)
  keeps_ticking : ∀ n, ∃ m k, n ≤ m ∧ calls m = .tick (k + 1)
  answers_key_waits : ∀ n, ∃ m k, n ≤ m ∧ calls m = .step (k + 1) ∧
    ∀ x, AtKeyWait x (stateAt calls s m) → keyAnswer (stateAt calls s m) ≠ none

end Sys2Proof.Machine
end

