-- ==== Sys2Proof/Certificates/Slice0/Obligations.lean ====
section
/-! DEFINITION. The statements for the provers, from the numbered rules of spec/. Each docstring names the rules. -/

open Sys2Proof Sys2Proof.Machine

/-! ### Encoding -/

/-- R74, R85, R98 (derived): every instruction is well formed, its word decodes to it, and so does its word as the opcode
table numbers bits. -/
def Obligations.DecodeOfEncodeIsIdentity : Prop :=
  ∀ i : Instr, i.wellFormed = true ∧ decode (encode i) = .ok i ∧ decodeTableWord 16 (encode i).toNat = some i

/-- R70, R76, R85 (derived): a word that decodes is the word of the instruction it decodes to, and a word that does not is
reported as the invalid opcode. No bit of a word is dropped, the ignored `y` of SHR and SHL included. -/
def Obligations.EncodeOfDecodeIsIdentity : Prop :=
  ∀ w : Word, (∀ i, decode w = .ok i → encode i = w) ∧ (∀ e, decode w = .error e → e = .invalidOpcode w)

/-- R74, R75 (derived): the table has 34 rows, no word matches two of them, and decoding answers the matching row's
instruction or, where none matches, the invalid opcode. -/
def Obligations.DecodeAnswersTheOnlyMatchingRow : Prop :=
  opcodeTable.length = 34 ∧ ∀ w : Word,
    (opcodeTable.filter fun r => r.matches w).length ≤ 1 ∧
    (∀ r ∈ opcodeTable, r.matches w = true → decode w = .ok (r.build w)) ∧
    ((∀ r ∈ opcodeTable, r.matches w = false) → decode w = .error (.invalidOpcode w))

/-- R77 to R84, R86, R87 (derived): the words that are no instruction are exactly those R86 lists. -/
def Obligations.InvalidWordsAreThoseListed : Prop :=
  ∀ w : Word,
    decode w = .error (.invalidOpcode w) ↔
      let op := w.toNat / 4096
      let n := w.toNat % 16
      let kk := w.toNat % 256
      (op = 0 ∧ w ≠ 0x00E0 ∧ w ≠ 0x00EE) ∨ ((op = 5 ∨ op = 9) ∧ n ≠ 0) ∨ (op = 8 ∧ (n ∈ [8, 9, 10, 11, 12, 13, 15])) ∨
      (op = 14 ∧ kk ≠ 0x9E ∧ kk ≠ 0xA1) ∨
      (op = 15 ∧ kk ∉ [0x07, 0x0A, 0x15, 0x18, 0x1E, 0x29, 0x33, 0x55, 0x65])

/-- R71, R72, R77 to R84 (derived): the word of each form as a number, digit by digit. -/
def Obligations.EncodingsAsNumbers : Prop :=
  encode .cls = 0x00E0 ∧ encode .ret = 0x00EE ∧
  (∀ nnn, (encode (.jmp nnn)).toNat = 0x1000 + nnn.toNat ∧ (encode (.call nnn)).toNat = 0x2000 + nnn.toNat ∧
    (encode (.movI nnn)).toNat = 0xA000 + nnn.toNat ∧ (encode (.jmpV0 nnn)).toNat = 0xB000 + nnn.toNat) ∧
  (∀ x kk, (encode (.seImm x kk)).toNat = 0x3000 + 0x100 * x + kk.toNat ∧
    (encode (.sneImm x kk)).toNat = 0x4000 + 0x100 * x + kk.toNat ∧
    (encode (.movImm x kk)).toNat = 0x6000 + 0x100 * x + kk.toNat ∧
    (encode (.addImm x kk)).toNat = 0x7000 + 0x100 * x + kk.toNat ∧
    (encode (.rnd x kk)).toNat = 0xC000 + 0x100 * x + kk.toNat) ∧
  (∀ x y, (encode (.seReg x y)).toNat = 0x5000 + 0x100 * x + 0x10 * y ∧
    (encode (.movReg x y)).toNat = 0x8000 + 0x100 * x + 0x10 * y ∧
    (encode (.orReg x y)).toNat = 0x8001 + 0x100 * x + 0x10 * y ∧
    (encode (.andReg x y)).toNat = 0x8002 + 0x100 * x + 0x10 * y ∧
    (encode (.xorReg x y)).toNat = 0x8003 + 0x100 * x + 0x10 * y ∧
    (encode (.addReg x y)).toNat = 0x8004 + 0x100 * x + 0x10 * y ∧
    (encode (.sub x y)).toNat = 0x8005 + 0x100 * x + 0x10 * y ∧
    (encode (.shr x y)).toNat = 0x8006 + 0x100 * x + 0x10 * y ∧
    (encode (.subn x y)).toNat = 0x8007 + 0x100 * x + 0x10 * y ∧
    (encode (.shl x y)).toNat = 0x800E + 0x100 * x + 0x10 * y ∧
    (encode (.sneReg x y)).toNat = 0x9000 + 0x100 * x + 0x10 * y ∧
    ∀ n, (encode (.drw x y n)).toNat = 0xD000 + 0x100 * x + 0x10 * y + n) ∧
  (∀ x, (encode (.skp x)).toNat = 0xE09E + 0x100 * x ∧ (encode (.sknp x)).toNat = 0xE0A1 + 0x100 * x ∧
    (encode (.movVxDT x)).toNat = 0xF007 + 0x100 * x ∧ (encode (.movVxK x)).toNat = 0xF00A + 0x100 * x ∧
    (encode (.movDTVx x)).toNat = 0xF015 + 0x100 * x ∧ (encode (.movSTVx x)).toNat = 0xF018 + 0x100 * x ∧
    (encode (.addI x)).toNat = 0xF01E + 0x100 * x ∧ (encode (.movF x)).toNat = 0xF029 + 0x100 * x ∧
    (encode (.movB x)).toNat = 0xF033 + 0x100 * x ∧ (encode (.storeRegs x)).toNat = 0xF055 + 0x100 * x ∧
    (encode (.loadRegs x)).toNat = 0xF065 + 0x100 * x)

/-- Sanity: words written out from R71 to R85 and the source's own examples (0x610C, 0x8124) decode as they must. -/
def Obligations.WrittenOutWordsDecode : Prop :=
  decode 0b0000000011100000 = .ok .cls ∧ decode 0b0010001100000000 = .ok (.call 0x300) ∧
  decode 0b0110000100001100 = .ok (.movImm 1 12) ∧ decode 0b1000000100100100 = .ok (.addReg 1 2) ∧
  decode 0b1101101010110101 = .ok (.drw 10 11 5) ∧ decode 0b1110000110011110 = .ok (.skp 1) ∧
  decode 0b1111001001010101 = .ok (.storeRegs 2) ∧ decode 0b1111001001100101 = .ok (.loadRegs 2) ∧
  decode 0b0000000100100011 = .error (.invalidOpcode 0x0123) ∧ decode 0b1000000100101000 = .error (.invalidOpcode 0x8128)

/-- R97, R98 (derived; the source's round-trip property S8): the written form of an instruction stands for it, and only
instructions it stands for are written so; a program of one such line assembles to the instruction's word. -/
def Obligations.AssemblyRoundTrip : Prop :=
  (∀ i : Instr, i.toAsm.toInstr? = some i) ∧
  (∀ (c : Config) (i : Instr), assemble c [.code none (some i.toAsm)] = some [encode i]) ∧
  (∀ (a : AsmInstr) (i : Instr), a.toInstr? = some i → i.toAsm = a)

/-! ### The step -/

/-- R305, R206: where no fault is latched and PC can be fetched from, and the word there decodes to i, a step is exec of i
on the state after the ticks the host has due, which differ from the state before in DT, ST and the host's plan only. -/
def Obligations.StepRunsTheDecodedInstruction : Prop :=
  ∀ (s : State) (i : Instr), s.fault = none → s.pc.toNat % 2 = 0 → s.pc.toNat + 1 < s.config.memSize →
    decode (byteAt s s.pc.toNat ++ byteAt s (s.pc.toNat + 1)) = .ok i →
    step s = exec i (applyDueTicks s) ∧ KeepsExcept [.dt, .st, .host] s (applyDueTicks s) ∧
    (s.host.dueTicks = [] → step s = exec i s) ∧
    (∀ n rest, s.host.dueTicks = n :: rest →
      (applyDueTicks s).dt.toNat = s.dt.toNat - n ∧ (applyDueTicks s).st.toNat = s.st.toNat - n ∧
      (applyDueTicks s).host = { s.host with dueTicks := rest })

/-- R305: one instruction step, case by case in its order. -/
def Obligations.InstructionStepFollowsItsOrder : Prop :=
  ∀ s : State,
    (∀ r, s.fault = some r → ∀ t, instructionStep s ≠ .next t) ∧
    (s.fault = none →
      (s.pc.toNat % 2 ≠ 0 →
        instructionStep s = .next { s with fault := some ⟨.pcMisaligned, s.pc, none, none, none⟩ }) ∧
      (s.pc.toNat % 2 = 0 →
        (s.pc.toNat + 1 ≥ s.config.memSize →
          instructionStep s =
            .next { s with fault := some ⟨.memoryBounds, s.pc, none, some (max s.pc.toNat s.config.memSize), none⟩ }) ∧
        (s.pc.toNat + 1 < s.config.memSize →
          ∀ w : Word, w.toNat = 256 * (byteAt s s.pc.toNat).toNat + (byteAt s (s.pc.toNat + 1)).toNat →
            (∀ e, decode w = .error e →
              instructionStep s = .next { s with fault := some ⟨.invalidOpcode, s.pc, some w, none, none⟩ }) ∧
            (∀ i, decode w = .ok i → instructionStep s = exec i s))))

/-- R39, R308: a step answers a next state whenever no fault is latched, and a latched fault stops it, by that fault's name;
no step is refused. -/
def Obligations.StepStopsExactlyOnALatchedFault : Prop :=
  ∀ s : State, (s.fault = none → ∃ t, step s = .next t) ∧
    (∀ r, s.fault = some r → step s = .fault (.latched r)) ∧ (∀ q, step s ≠ .refused q)

/-- R54, R303, R306, R307: an instruction that faults writes nothing but the latch, its record names pc0 and the word, and
each instruction has only its own kind of fault. -/
def Obligations.FaultsArePrecise : Prop :=
  ∀ (i : Instr) (s t : State), s.fault = none → exec i s = .next t →
    t.fault = none ∨ ∃ r, t = { s with fault := some r } ∧ r.pc = s.pc ∧ r.word = some (encode i) ∧
      match i with
      | .call _ => r.kind = .stackOverflow
      | .ret => r.kind = .stackUnderflow
      | .drw _ _ _ | .movB _ | .storeRegs _ | .loadRegs _ => r.kind = .memoryBounds
      | .skp _ | .sknp _ => r.kind = .keyRange
      | _ => False

/-- R26, R27, R39, R301: the invariant of the core is kept by every step. -/
def Obligations.InvariantKeptByEveryStep : Prop :=
  ∀ s t : State, Inv s → step s = .next t → Inv t

/-- The invariant holds right after reset (R43). -/
def Obligations.InvariantHoldsAtReset : Prop := Inv State.reset

/-- R325, R326: every call of the host keeps the invariant. -/
def Obligations.InvariantKeptByHostCalls : Prop :=
  ∀ (c : HostCall) (s : State), Inv s → Inv (hostCall c s).1

/-- R400 to R405 (derived): with any parameters every launch state meets the invariant, and so does the state every
session ends in. -/
def Obligations.SessionsMeetTheInvariant : Prop :=
  ∀ c : Config, (∀ image s, launch? c image = some s → Inv s) ∧
    ∀ (session : Session) (s : State), session.config = c → session.final? = some s → Inv s

/-- R43, R401: what creation leaves in every element of the state, with any parameters; State.reset is creation with the
source's (R7). -/
def Obligations.ResetValues : Prop :=
  State.reset = State.created Config.standard ∧
  (Config.standard.regBits = 8 ∧ Config.standard.nregs = 16 ∧ Config.standard.iBits = 16 ∧ Config.standard.pcBits = 16 ∧
    Config.standard.memSize = 0xE90 ∧ Config.standard.loadBase = 0x200 ∧ Config.standard.maxProgram = 0xC90 ∧
    Config.standard.stackDepth = 12 ∧ Config.standard.dispW = 64 ∧ Config.standard.dispH = 32 ∧
    Config.standard.fbBytes = 256 ∧ Config.standard.fontGlyphs = 16 ∧ Config.standard.glyphBytes = 5 ∧
    Config.standard.fontBase = 0x000 ∧ Config.standard.font = Config.customaryFont ∧ Config.standard.nkeys = 16 ∧
    Config.standard.insnBytes = 2 ∧ Config.standard.timerHz = 60 ∧ Config.standard.cpuHz = none) ∧
  ∀ c : Config, (State.created c).config = c ∧
    (∀ r, getV (State.created c) r = 0) ∧ (State.created c).i = 0 ∧ (State.created c).pc = 0 ∧
    (State.created c).dt = 0 ∧ (State.created c).st = 0 ∧
    ((State.created c).stack.length = c.stackDepth ∧ ∀ k, stackEntry (State.created c) k = 0) ∧
    (State.created c).sp = 0 ∧ FbShape c (State.created c).fb ∧ (∀ px py, pixel (State.created c).fb px py = false) ∧
    (∀ a, a < c.font.length → byteAt (State.created c) (c.fontBase + a) = c.font.getD a 0) ∧
    (∀ a, (a < c.fontBase ∨ c.fontBase + c.font.length ≤ a) → byteAt (State.created c) a = 0) ∧
    (State.created c).wasBlocking = false ∧ (State.created c).fault = none

/-- The parameters are the core's for good: no instruction step, no tick and no call of the host changes them (R7, R326). -/
def Obligations.ConfigurationNeverChanges : Prop :=
  ∀ s : State, (∀ t, step s = .next t → t.config = s.config) ∧ ∀ c : HostCall, (hostCall c s).1.config = s.config

/-! ### Display -/

/-- R100: CLS clears every pixel and changes nothing else but PC. -/
def Obligations.ClsClearsTheScreen : Prop :=
  encode .cls = 0x00E0 ∧ ∀ s : State, ∃ t, exec .cls s = .next t ∧
    FbShape s.config t.fb ∧ (∀ px py, pixel t.fb px py = false) ∧ t.pc = s.pc + 2 ∧
    KeepsExcept [.fb, .pc] s t

/-- R101: DRW flips exactly the pixels its sprite covers, reports in VF whether one of them was set, and writes nothing
else; with rows to read that leave memory it only faults. The framebuffer has its shape (R34), which `Inv` keeps. -/
def Obligations.DrwDrawsItsSprite : Prop :=
  ∀ (x y : Reg) (n : Rows) (s : State),
    (encode (.drw x y n)).toNat = 0xD000 + 0x100 * x + 0x10 * y + n ∧
    (1 ≤ n.val → s.i.toNat + n - 1 ≥ s.config.memSize →
      exec (.drw x y n) s = .next { s with fault := some (boundsRecord (.drw x y n) s) }) ∧
    (n.val = 0 ∨ s.i.toNat + n - 1 < s.config.memSize → FbShape s.config s.fb →
      ∃ t, exec (.drw x y n) s = .next t ∧ FbShape s.config t.fb ∧ t.pc = s.pc + 2 ∧ KeepsExcept [.fb, .v, .pc] s t ∧
        (∀ r, r ≠ vf → getV t r = getV s r) ∧
        (∀ px py, drwCovers x y n s px py → pixel t.fb px py = !pixel s.fb px py) ∧
        (∀ px py, ¬ drwCovers x y n s px py → pixel t.fb px py = pixel s.fb px py) ∧
        ((∃ px py, drwCovers x y n s px py ∧ pixel s.fb px py = true) → getV t vf = 1) ∧
        ((¬ ∃ px py, drwCovers x y n s px py ∧ pixel s.fb px py = true) → getV t vf = 0))

/-- R102 (derived from R101, whose VF rule decides; assumption log 13): the same DRW twice restores the framebuffer, and
the second sets VF exactly when some pixel the sprite covers was clear before the first; on a framebuffer clear before the
first, exactly when the sprite has a set bit. x and y are not F. -/
def Obligations.DrwTwiceRestoresTheScreen : Prop :=
  ∀ (x y : Reg) (n : Rows) (s t u : State), x ≠ vf → y ≠ vf → FbShape s.config s.fb → (n.val = 0 ∨ s.i.toNat + n - 1 < s.config.memSize) →
    exec (.drw x y n) s = .next t → exec (.drw x y n) t = .next u →
    (∀ px py, pixel u.fb px py = pixel s.fb px py) ∧
    ((∃ px py, drwCovers x y n s px py ∧ pixel s.fb px py = false) → getV u vf = 1) ∧
    ((¬ ∃ px py, drwCovers x y n s px py ∧ pixel s.fb px py = false) → getV u vf = 0) ∧
    ((∀ px py, pixel s.fb px py = false) →
      getV u vf = if (bytesAt s s.i.toNat n).any (fun b => decide (b ≠ 0)) then 1 else 0)

/-- R102 as its words stand, for every framebuffer. They claim too much of the second VF: where every pixel the sprite
covers was set before the first DRW, the first clears them all and the second, by R101, hits none that is set (assumption
log 13). Expected to fail. -/
def Obligations.RepeatedDrwInTheWordsOfR102 : Prop :=
  ∀ (x y : Reg) (n : Rows) (s t u : State), x ≠ vf → y ≠ vf → FbShape s.config s.fb → (n.val = 0 ∨ s.i.toNat + n - 1 < s.config.memSize) →
    exec (.drw x y n) s = .next t → exec (.drw x y n) t = .next u →
    (∀ px py, pixel u.fb px py = pixel s.fb px py) ∧
    getV u vf = if (bytesAt s s.i.toNat n).any (fun b => decide (b ≠ 0)) then 1 else 0

/-- R35: the packing of the framebuffer in bytes, DISP_W / 8 of them to a row: 8 with the source's 64 columns. -/
def Obligations.FramebufferPacking : Prop :=
  (Config.standard.fbBytes = 256 ∧ Config.standard.dispW / 8 = 8) ∧
  ∀ (c : Config) (fb : Framebuffer), (fbImage c fb).length = c.fbBytes ∧ c.fbBytes = c.dispW * c.dispH / 8 ∧
    ∀ px py, px < c.dispW → py < c.dispH →
      ((fbImage c fb).getD (py * (c.dispW / 8) + px / 8) 0).getLsbD (7 - px % 8) = pixel fb px py

/-! ### Control flow -/

/-- R123 to R126: the skips go to pc0 + 4 or pc0 + 2 and change nothing but PC; the next fetch checks where they land. -/
def Obligations.RegisterSkips : Prop :=
  ∀ (x y : Reg) (kk : Byte) (s : State),
    ((encode (.seImm x kk)).toNat = 0x3000 + 0x100 * x + kk.toNat ∧ ∃ t, exec (.seImm x kk) s = .next t ∧
      t.pc = (if getV s x = kk then s.pc + 4 else s.pc + 2) ∧ KeepsExcept [.pc] s t ∧
      (s.fault = none → FetchChecksTarget t)) ∧
    ((encode (.sneImm x kk)).toNat = 0x4000 + 0x100 * x + kk.toNat ∧ ∃ t, exec (.sneImm x kk) s = .next t ∧
      t.pc = (if getV s x = kk then s.pc + 2 else s.pc + 4) ∧ KeepsExcept [.pc] s t ∧
      (s.fault = none → FetchChecksTarget t)) ∧
    ((encode (.seReg x y)).toNat = 0x5000 + 0x100 * x + 0x10 * y ∧ ∃ t, exec (.seReg x y) s = .next t ∧
      t.pc = (if getV s x = getV s y then s.pc + 4 else s.pc + 2) ∧ KeepsExcept [.pc] s t ∧
      (s.fault = none → FetchChecksTarget t)) ∧
    ((encode (.sneReg x y)).toNat = 0x9000 + 0x100 * x + 0x10 * y ∧ ∃ t, exec (.sneReg x y) s = .next t ∧
      t.pc = (if getV s x = getV s y then s.pc + 2 else s.pc + 4) ∧ KeepsExcept [.pc] s t ∧
      (s.fault = none → FetchChecksTarget t))

/-- R121, R127: the jumps go to their target as it is, unmasked and unchecked, and change nothing but PC; the next fetch
checks it. -/
def Obligations.JumpsGoToTheirTarget : Prop :=
  ∀ (nnn : Addr12) (s : State),
    ((encode (.jmp nnn)).toNat = 0x1000 + nnn.toNat ∧ ∃ t, exec (.jmp nnn) s = .next t ∧ t.pc.toNat = nnn.toNat ∧
      KeepsExcept [.pc] s t ∧ (s.fault = none → FetchChecksTarget t)) ∧
    ((encode (.jmpV0 nnn)).toNat = 0xB000 + nnn.toNat ∧ ∃ t, exec (.jmpV0 nnn) s = .next t ∧
      t.pc.toNat = nnn.toNat + (getV s 0).toNat ∧ KeepsExcept [.pc] s t ∧ (s.fault = none → FetchChecksTarget t))

/-- R122 (and R32): CALL pushes the address after it and jumps, its target checked by the next fetch, or, on a full stack,
only faults. The stack has its shape (R31), which `Inv` keeps. -/
def Obligations.CallPushesTheReturnAddress : Prop :=
  ∀ (nnn : Addr12) (s : State), StackShape s →
    (encode (.call nnn)).toNat = 0x2000 + nnn.toNat ∧
    (s.sp < s.config.stackDepth → ∃ t, exec (.call nnn) s = .next t ∧ t.pc.toNat = nnn.toNat ∧ t.sp = s.sp + 1 ∧
      t.stack.length = s.stack.length ∧
      (∀ k, stackEntry t k = if k = s.sp then s.pc + 2 else stackEntry s k) ∧
      KeepsExcept [.pc, .sp, .stack] s t ∧ (s.fault = none → FetchChecksTarget t)) ∧
    (s.sp = s.config.stackDepth →
      exec (.call nnn) s = .next { s with fault := some ⟨.stackOverflow, s.pc, some (encode (.call nnn)), none, none⟩ })

/-- R120 (and R33): RET goes to the popped address, the entry staying in the array, or, on an empty stack, only faults. -/
def Obligations.RetPopsTheReturnAddress : Prop :=
  encode .ret = 0x00EE ∧ ∀ s : State,
    (∀ k, s.sp = k + 1 → ∃ t, exec .ret s = .next t ∧ t.pc = stackEntry s k ∧ t.sp = k ∧ KeepsExcept [.pc, .sp] s t) ∧
    (s.sp = 0 →
      exec .ret s = .next { s with fault := some ⟨.stackUnderflow, s.pc, some 0x00EE, none, none⟩ })

/-- R128: CALLs at given addresses, as many as the stack has room for, followed by as many RETs, return in
last-in-first-out order to the addresses after them and leave SP as it was. -/
def Obligations.CallsAndReturnsNest : Prop :=
  ∀ (calls : List (Word × Addr12)) (s : State), s.fault = none → StackShape s →
    s.sp + calls.length ≤ s.config.stackDepth →
    ∃ t u, callsAt calls s = some t ∧
      returns calls.length t = some ((calls.map fun c => c.1 + 2).reverse, u) ∧ u.sp = s.sp

/-- R31 to R33 (derived): the valid entries are a stack that only CALL and RET change, and only at its top. The stack has its
shape, which `Inv` keeps. -/
def Obligations.OnlyCallAndRetChangeTheStack : Prop :=
  ∀ (i : Instr) (s t : State), StackShape s → s.fault = none → exec i s = .next t → t.fault = none →
    match i with
    | .call _ => frames t = (s.pc + 2) :: frames s
    | .ret => frames s = t.pc :: frames t
    | _ => t.stack = s.stack ∧ t.sp = s.sp

/-- R31 (derived; decision D24): what a stale stack entry holds is never observed. Two states that differ in stale entries
only give, on any step, both a stop or two next states that differ in stale entries only. -/
def Obligations.StaleEntriesAreUnobservable : Prop :=
  ∀ s t : State, AgreeButStale s t →
    (∀ s', step s = .next s' → ∃ t', step t = .next t' ∧ AgreeButStale s' t') ∧
    (∀ f, step s = .fault f → step t = .fault f)

/-! ### ALU -/

/-- R140, R141: the immediate forms write their register, the sum wrapping mod 256, and no flag. -/
def Obligations.ImmediateFormsWriteTheirRegister : Prop :=
  ∀ (x : Reg) (kk : Byte) (s : State),
    ((encode (.movImm x kk)).toNat = 0x6000 + 0x100 * x + kk.toNat ∧
      ∃ t, exec (.movImm x kk) s = .next t ∧ WritesReg x kk s t) ∧
    ((encode (.addImm x kk)).toNat = 0x7000 + 0x100 * x + kk.toNat ∧
      ∃ t, exec (.addImm x kk) s = .next t ∧
        WritesReg x (BitVec.ofNat 8 (((getV s x).toNat + kk.toNat) % 256)) s t)

/-- R145 to R148: MOV, OR, AND and XOR write Vx, bit by bit, and no flag. -/
def Obligations.LogicFormsWriteTheirRegister : Prop :=
  ∀ (x y : Reg) (s : State),
    ((encode (.movReg x y)).toNat = 0x8000 + 0x100 * x + 0x10 * y ∧
      ∃ t, exec (.movReg x y) s = .next t ∧ WritesReg x (getV s y) s t) ∧
    ((encode (.orReg x y)).toNat = 0x8001 + 0x100 * x + 0x10 * y ∧
      ∃ t b, exec (.orReg x y) s = .next t ∧ WritesReg x b s t ∧
        ∀ k, b.getLsbD k = ((getV s x).getLsbD k || (getV s y).getLsbD k)) ∧
    ((encode (.andReg x y)).toNat = 0x8002 + 0x100 * x + 0x10 * y ∧
      ∃ t b, exec (.andReg x y) s = .next t ∧ WritesReg x b s t ∧
        ∀ k, b.getLsbD k = ((getV s x).getLsbD k && (getV s y).getLsbD k)) ∧
    ((encode (.xorReg x y)).toNat = 0x8003 + 0x100 * x + 0x10 * y ∧
      ∃ t b, exec (.xorReg x y) s = .next t ∧ WritesReg x b s t ∧
        ∀ k, b.getLsbD k = ((getV s x).getLsbD k ^^ (getV s y).getLsbD k))

/-- R149 to R151: ADD, SUB and SUBN, result mod 256 and then the flag, carry or no borrow, VF as a destination included. -/
def Obligations.AddSubSubnWriteResultThenFlag : Prop :=
  ∀ (x y : Reg) (s : State),
    ((encode (.addReg x y)).toNat = 0x8004 + 0x100 * x + 0x10 * y ∧
      ∃ t, exec (.addReg x y) s = .next t ∧
        WritesRegAndFlag x (BitVec.ofNat 8 (((getV s x).toNat + (getV s y).toNat) % 256))
          (if (getV s x).toNat + (getV s y).toNat > 255 then 1 else 0) s t) ∧
    ((encode (.sub x y)).toNat = 0x8005 + 0x100 * x + 0x10 * y ∧
      ∃ t, exec (.sub x y) s = .next t ∧
        WritesRegAndFlag x (BitVec.ofNat 8 ((256 + (getV s x).toNat - (getV s y).toNat) % 256))
          (if (getV s x).toNat ≥ (getV s y).toNat then 1 else 0) s t) ∧
    ((encode (.subn x y)).toNat = 0x8007 + 0x100 * x + 0x10 * y ∧
      ∃ t, exec (.subn x y) s = .next t ∧
        WritesRegAndFlag x (BitVec.ofNat 8 ((256 + (getV s y).toNat - (getV s x).toNat) % 256))
          (if (getV s y).toNat ≥ (getV s x).toNat then 1 else 0) s t)

/-- R152, R154: the shifts by one of Vx, the bit shifted out in VF; V[y] is not read. -/
def Obligations.ShiftsWriteResultThenFlag : Prop :=
  ∀ (x y : Reg) (s : State),
    ((encode (.shr x y)).toNat = 0x8006 + 0x100 * x + 0x10 * y ∧
      ∃ t, exec (.shr x y) s = .next t ∧
        WritesRegAndFlag x (BitVec.ofNat 8 ((getV s x).toNat / 2)) (BitVec.ofNat 8 ((getV s x).toNat % 2)) s t) ∧
    ((encode (.shl x y)).toNat = 0x800E + 0x100 * x + 0x10 * y ∧
      ∃ t, exec (.shl x y) s = .next t ∧
        WritesRegAndFlag x (BitVec.ofNat 8 (2 * (getV s x).toNat % 256)) (BitVec.ofNat 8 ((getV s x).toNat / 128)) s t)

/-- R156: RND writes the drawn byte masked by kk, so that bits outside kk are 0, and no flag. Of the draw, one per
execution, it says nothing. -/
def Obligations.RndMasksTheDraw : Prop :=
  ∀ (x : Reg) (kk : Byte) (s : State),
    (encode (.rnd x kk)).toNat = 0xC000 + 0x100 * x + kk.toNat ∧
    ∃ t draw, exec (.rnd x kk) s = .next t ∧ t.host.events = .rand draw :: s.host.events ∧
      (∀ r, getV t r = if r = x then draw &&& kk else getV s r) ∧
      (∀ k, kk.getLsbD k = false → (getV t x).getLsbD k = false) ∧ t.pc = s.pc + 2 ∧ KeepsExcept [.v, .pc, .host] s t

/-! ### Address register and memory -/

/-- R170 to R172: the instructions that write I; VF is not written, and the sum wraps mod 2^16. The glyph's
address, FONT_BASE + GLYPH_BYTES times the digit, needs no wrap; GLYPH_BYTES is 5 in R7. -/
def Obligations.IndexFormsWriteI : Prop :=
  ∀ (x : Reg) (nnn : Addr12) (s : State),
    ((encode (.movI nnn)).toNat = 0xA000 + nnn.toNat ∧
      ∃ t, exec (.movI nnn) s = .next t ∧ t.i.toNat = nnn.toNat ∧ t.pc = s.pc + 2 ∧ KeepsExcept [.i, .pc] s t) ∧
    ((encode (.addI x)).toNat = 0xF01E + 0x100 * x ∧
      ∃ t, exec (.addI x) s = .next t ∧ t.i.toNat = (s.i.toNat + (getV s x).toNat) % 2 ^ 16 ∧ t.pc = s.pc + 2 ∧
        KeepsExcept [.i, .pc] s t) ∧
    ((encode (.movF x)).toNat = 0xF029 + 0x100 * x ∧
      ∃ t, exec (.movF x) s = .next t ∧ t.pc = s.pc + 2 ∧
        t.i.toNat = s.config.fontBase + s.config.glyphBytes * ((getV s x).toNat % 16) ∧ KeepsExcept [.i, .pc] s t)

/-- R174: MOV B stores the three decimal digits, or, where they would leave memory, only faults. -/
def Obligations.MovBStoresTheDigits : Prop :=
  ∀ (x : Reg) (s : State),
    (encode (.movB x)).toNat = 0xF033 + 0x100 * x ∧
    (s.i.toNat + 2 < s.config.memSize → ∃ t h z u, exec (.movB x) s = .next t ∧ StoresBytes s.i.toNat [h, z, u] s t ∧
      (getV s x).toNat = 100 * h.toNat + 10 * z.toNat + u.toNat ∧ z.toNat ≤ 9 ∧ u.toNat ≤ 9) ∧
    (s.i.toNat + 2 ≥ s.config.memSize → exec (.movB x) s = .next { s with fault := some (boundsRecord (.movB x) s) })

/-- R175: MOV [I],Vx stores V0 to Vx from I on and leaves I unchanged, or, where they would leave memory, only faults. -/
def Obligations.StoreRegsStoresV0ToVx : Prop :=
  ∀ (x : Reg) (s : State),
    (encode (.storeRegs x)).toNat = 0xF055 + 0x100 * x ∧
    (s.i.toNat + x < s.config.memSize → ∃ t, exec (.storeRegs x) s = .next t ∧
      (∀ r, r ≤ x → byteAt t (s.i.toNat + r) = getV s r) ∧
      (∀ a, (a < s.i.toNat ∨ s.i.toNat + x < a) → byteAt t a = byteAt s a) ∧
      t.pc = s.pc + 2 ∧ KeepsExcept [.mem, .pc] s t) ∧
    (s.i.toNat + x ≥ s.config.memSize →
      exec (.storeRegs x) s = .next { s with fault := some (boundsRecord (.storeRegs x) s) })

/-- R176: MOV Vx,[I] loads V0 to Vx from I on and leaves the other registers and I unchanged, or only faults. -/
def Obligations.LoadRegsLoadsV0ToVx : Prop :=
  ∀ (x : Reg) (s : State),
    (encode (.loadRegs x)).toNat = 0xF065 + 0x100 * x ∧
    (s.i.toNat + x < s.config.memSize → ∃ t, exec (.loadRegs x) s = .next t ∧
      (∀ r, getV t r = if r ≤ x then byteAt s (s.i.toNat + r) else getV s r) ∧
      t.pc = s.pc + 2 ∧ KeepsExcept [.v, .pc] s t) ∧
    (s.i.toNat + x ≥ s.config.memSize →
      exec (.loadRegs x) s = .next { s with fault := some (boundsRecord (.loadRegs x) s) })

/-- R177: a store of V0 to Vx and then a load of them leaves every register as it was, and both fault together. -/
def Obligations.StoreThenLoadRestoresRegisters : Prop :=
  ∀ (x : Reg) (s t u : State), s.fault = none → exec (.storeRegs x) s = .next t → exec (.loadRegs x) t = .next u →
    (∀ r, getV u r = getV s r) ∧ (t.fault = none ↔ s.i.toNat + x < s.config.memSize) ∧ (u.fault = none ↔ t.fault = none)

/-- R60 (derived): memory holds the last byte written to an address, and a write changes no other address and keeps the
canonical form, under which equal memories are equal lists; with any parameters. -/
def Obligations.MemoryHoldsWhatWasWritten : Prop :=
  ∀ c : Config,
    (∀ (m : Memory) (a b : Nat) (v : Byte), readByte c (writeByte c m a v) b = if b = a then v else readByte c m b) ∧
    (∀ (m : Memory) (a : Nat) (v : Byte), Memory.wf c m = true → a < c.memSize → Memory.wf c (writeByte c m a v) = true) ∧
    (∀ m m' : Memory, Memory.wf c m = true → Memory.wf c m' = true → (∀ a, readByte c m a = readByte c m' a) → m = m')

/-- R62, R413 (derived): a store to the two bytes after the instruction is what the next step fetches. -/
def Obligations.StoredBytesAreFetchedNext : Prop :=
  ∀ (x : Reg) (s t : State), 1 ≤ x.val → s.fault = none → s.pc.toNat % 2 = 0 → s.i.toNat = s.pc.toNat + 2 →
    s.i.toNat + x < s.config.memSize → exec (.storeRegs x) s = .next t → fetch t = .ok (getV s 0 ++ getV s 1)

/-! ### Keys and timers -/

/-- R190, R191 (and R320): a key skip asks the host once about V[x] and skips on its answer, or, where V[x] is no key,
only faults and asks nothing. Of the answer it says nothing. -/
def Obligations.KeySkipsAskTheHost : Prop :=
  ∀ (x : Reg) (s : State),
    (encode (.skp x)).toNat = 0xE09E + 0x100 * x ∧ (encode (.sknp x)).toNat = 0xE0A1 + 0x100 * x ∧
    (∀ k : Key, (getV s x).toNat = k.val →
      (∃ down t, exec (.skp x) s = .next t ∧ t.host.events = .keyDown k down :: s.host.events ∧
        t.pc = (if down = true then s.pc + 4 else s.pc + 2) ∧ KeepsExcept [.pc, .host] s t) ∧
      (∃ down t, exec (.sknp x) s = .next t ∧ t.host.events = .keyDown k down :: s.host.events ∧
        t.pc = (if down = true then s.pc + 2 else s.pc + 4) ∧ KeepsExcept [.pc, .host] s t)) ∧
    ((getV s x).toNat > 15 →
      exec (.skp x) s =
        .next { s with fault := some ⟨.keyRange, s.pc, some (encode (.skp x)), none, some (getV s x)⟩ } ∧
      exec (.sknp x) s =
        .next { s with fault := some ⟨.keyRange, s.pc, some (encode (.sknp x)), none, some (getV s x)⟩ })

/-- R192 to R194: the timer moves. -/
def Obligations.TimerMoves : Prop :=
  ∀ (x : Reg) (s : State),
    ((encode (.movVxDT x)).toNat = 0xF007 + 0x100 * x ∧ ∃ t, exec (.movVxDT x) s = .next t ∧ WritesReg x s.dt s t) ∧
    ((encode (.movDTVx x)).toNat = 0xF015 + 0x100 * x ∧
      ∃ t, exec (.movDTVx x) s = .next t ∧ t.dt = getV s x ∧ t.pc = s.pc + 2 ∧ KeepsExcept [.dt, .pc] s t) ∧
    ((encode (.movSTVx x)).toNat = 0xF018 + 0x100 * x ∧
      ∃ t, exec (.movSTVx x) s = .next t ∧ t.st = getV s x ∧ t.pc = s.pc + 2 ∧ KeepsExcept [.st, .pc] s t)

/-- R204 (and R321, R322, R325): MOV Vx,K asks for a redraw and then for a key, sets was_blocking, and either stores the key
and goes on or holds PC; the host's step call returns after it on either branch. Of the answer it says nothing. -/
def Obligations.KeyWaitStoresOrHolds : Prop :=
  ∀ (x : Reg) (s : State),
    (encode (.movVxK x)).toNat = 0xF00A + 0x100 * x ∧
    ∃ t answer, exec (.movVxK x) s = .next t ∧ t.host.events = .getKey answer :: .redraw :: s.host.events ∧
      t.wasBlocking = true ∧ KeepsExcept [.v, .pc, .wasBlocking, .host] s t ∧
      (∀ k : Key, answer = some k →
        t.pc = s.pc + 2 ∧ (getV t x).toNat = k.val ∧ ∀ r, r ≠ x → getV t r = getV s r) ∧
      (answer = none → t.pc = s.pc ∧ ∀ r, getV t r = getV s r) ∧
      (s.fault = none → fetch s = .ok (encode (.movVxK x)) → ∀ n, stepCall (n + 1) s = (t, .ok))

/-- THE MODEL'S CHOICE (assumption log 4): the four instructions that ask the host take the next answer scripted for them
where one is, and otherwise some answer, a free value; they use up one scripted answer, record it and change nothing else of
the host's part. -/
def Obligations.HostAnswersAreScriptedFirst : Prop :=
  ∀ (x : Reg) (kk : Byte) (s t : State),
    (exec (.rnd x kk) s = .next t → ∃ byte, (∀ b rest, s.host.rand = b :: rest → byte = b) ∧
      t.host = { s.host with rand := s.host.rand.tail, events := .rand byte :: s.host.events }) ∧
    (∀ k : Key, (getV s x).toNat = k.val → exec (.skp x) s = .next t ∨ exec (.sknp x) s = .next t →
      ∃ down, (∀ d rest, s.host.keyDown = d :: rest → down = d) ∧
        t.host = { s.host with keyDown := s.host.keyDown.tail, events := .keyDown k down :: s.host.events }) ∧
    (exec (.movVxK x) s = .next t → ∃ answer, (∀ a rest, s.host.getKey = a :: rest → answer = a) ∧
      t.host = { s.host with getKey := s.host.getKey.tail, events := .getKey answer :: .redraw :: s.host.events })

/-- R205: n ticks take both timers down by n, each stopping at 0, write nothing else, and are n single ticks. -/
def Obligations.TicksCountDownAndSaturate : Prop :=
  ∀ (n : Nat) (s : State),
    (tick n s).dt.toNat = s.dt.toNat - n ∧ (tick n s).st.toNat = s.st.toNat - n ∧ KeepsExcept [.dt, .st] s (tick n s) ∧
    tick n s = (tick 1)^[n] s ∧ tick 0 s = s

/-! ### Who writes what -/

/-- R23: the writers of the V registers, over all instructions. -/
def Obligations.OnlyListedInstructionsWriteV : Prop :=
  ∀ (i : Instr) (s t : State) (r : Reg), exec i s = .next t → getV t r ≠ getV s r →
    match i with
    | .movImm x _ | .addImm x _ | .movReg x _ | .orReg x _ | .andReg x _ | .xorReg x _ | .rnd x _ | .movVxDT x => r = x
    | .movVxK x => r = x ∧ t.pc = s.pc + 2
    | .addReg x _ | .sub x _ | .shr x _ | .subn x _ | .shl x _ => r = x ∨ r = vf
    | .drw _ _ _ => r = vf
    | .loadRegs x => r ≤ x
    | _ => False

/-- R28 to R30, R34, R38, R50, R320 to R323 (derived): which instructions may change I, the timers, the framebuffer,
memory, was_blocking and the host's part; no other does. -/
def Obligations.OnlyListedInstructionsWriteTheRest : Prop :=
  ∀ (i : Instr) (s t : State), exec i s = .next t →
    (t.i ≠ s.i → (∃ n, i = .movI n) ∨ (∃ x, i = .addI x) ∨ ∃ x, i = .movF x) ∧
    (t.dt ≠ s.dt → ∃ x, i = .movDTVx x) ∧ (t.st ≠ s.st → ∃ x, i = .movSTVx x) ∧
    (t.fb ≠ s.fb → i = .cls ∨ ∃ x y n, i = .drw x y n) ∧
    (t.mem ≠ s.mem → (∃ x, i = .movB x) ∨ ∃ x, i = .storeRegs x) ∧
    (t.wasBlocking ≠ s.wasBlocking → ∃ x, i = .movVxK x) ∧
    (t.host ≠ s.host → (∃ x, i = .skp x) ∨ (∃ x, i = .sknp x) ∨ (∃ x, i = .movVxK x) ∨ ∃ x kk, i = .rnd x kk)

/-- R25: the next PC of every instruction, by its kind and outcome, and pc0 where it faults. The outcome of a key skip and
of a key wait is the host's answer, the newest host event. -/
def Obligations.NextPcByKind : Prop :=
  ∀ (i : Instr) (s t : State), s.fault = none → exec i s = .next t →
    (t.fault ≠ none → t.pc = s.pc) ∧
    (t.fault = none →
      match i with
      | .seImm x kk => t.pc = if getV s x = kk then s.pc + 4 else s.pc + 2
      | .sneImm x kk => t.pc = if getV s x ≠ kk then s.pc + 4 else s.pc + 2
      | .seReg x y => t.pc = if getV s x = getV s y then s.pc + 4 else s.pc + 2
      | .sneReg x y => t.pc = if getV s x ≠ getV s y then s.pc + 4 else s.pc + 2
      | .skp _ => ∃ k down, t.host.events = .keyDown k down :: s.host.events ∧
          t.pc = if down = true then s.pc + 4 else s.pc + 2
      | .sknp _ => ∃ k down, t.host.events = .keyDown k down :: s.host.events ∧
          t.pc = if down = false then s.pc + 4 else s.pc + 2
      | .jmp nnn | .call nnn => t.pc.toNat = nnn.toNat
      | .jmpV0 nnn => t.pc.toNat = nnn.toNat + (getV s 0).toNat
      | .ret => ∃ k, s.sp = k + 1 ∧ t.pc = stackEntry s k
      | .movVxK _ => ∃ answer, t.host.events = .getKey answer :: .redraw :: s.host.events ∧
          t.pc = if answer = none then s.pc else s.pc + 2
      | _ => t.pc = s.pc + 2)

/-! ### The host -/

/-- R402: a program load, with any parameters. -/
def Obligations.ProgramLoad : Prop :=
  ∀ (image : List Byte) (s : State),
    (image.length > s.config.memSize - s.config.loadBase → loadCall image s = (s, .loadRejected)) ∧
    (image.length ≤ s.config.memSize - s.config.loadBase → ∃ t, loadCall image s = (t, .ok) ∧
      t.pc.toNat = s.config.loadBase ∧
      (∀ k, k < image.length → byteAt t (s.config.loadBase + k) = image.getD k 0) ∧
      (∀ a, (a < s.config.loadBase ∨ s.config.loadBase + image.length ≤ a) → byteAt t a = byteAt s a) ∧
      KeepsExcept [.mem, .pc] s t)

/-- R405: what a launch leaves, with any parameters. -/
def Obligations.LaunchValues : Prop :=
  ∀ (c : Config) (image : List Byte) (s : State), launch? c image = some s →
    s.fault = none ∧ s.wasBlocking = false ∧ s.sp = 0 ∧ s.pc.toNat = c.loadBase ∧
    (∀ a, a < c.font.length → byteAt s (c.fontBase + a) = c.font.getD a 0) ∧
    (∀ k, k < image.length → byteAt s (c.loadBase + k) = image.getD k 0) ∧
    (∀ a, (a < c.fontBase ∨ c.fontBase + c.font.length ≤ a) → (a < c.loadBase ∨ c.loadBase + image.length ≤ a) →
      byteAt s a = 0) ∧
    (∀ r, getV s r = 0) ∧ s.i = 0 ∧ s.dt = 0 ∧ s.st = 0 ∧ ∀ px py, pixel s.fb px py = false

/-- THE MODEL'S CHOICE (assumption log 12): a rejected load is not the host's one load: a session whose first loads are
rejected is the session of the rest, and with none accepted nothing runs. -/
def Obligations.RejectedLoadsMayBeRetried : Prop :=
  ∀ (c : Config) (image : List Byte) (images : List (List Byte)) (calls : List HostCall),
    (image.length > c.memSize - c.loadBase → Session.final? ⟨c, image :: images, calls⟩ = Session.final? ⟨c, images, calls⟩) ∧
    (image.length ≤ c.memSize - c.loadBase → ∃ s, launch? c image = some s ∧
      Session.final? ⟨c, image :: images, calls⟩ = some (hostCalls calls s)) ∧
    Session.final? ⟨c, [], calls⟩ = none

/-- R326 (derived): after the load the host writes DT and ST only: a tick changes nothing else, and `step(state, n)` with no
instruction step to run changes was_blocking only. -/
def Obligations.HostWritesTimersOnly : Prop :=
  ∀ (n : Nat) (s : State), KeepsExcept [.dt, .st] s (hostCall (.tick n) s).1 ∧
    (n = 0 ∨ s.fault ≠ none → KeepsExcept [.wasBlocking] s (hostCall (.step n) s).1)

/-- R325: the host call `step(state, n)`: was_blocking is cleared, then at most n instruction steps run, the call ending
early on a fault and after a key wait. -/
def Obligations.StepCallComposition : Prop :=
  ∀ s : State,
    (∀ n r, s.fault = some r → (stepCall n s).2 = .err r ∧ KeepsExcept [.wasBlocking] s (stepCall n s).1) ∧
    (s.fault = none → stepCall 0 s = ({ s with wasBlocking := false }, .ok)) ∧
    (∀ n t, instructionStep { s with wasBlocking := false } = .next t →
      (∀ r, t.fault = some r → stepCall (n + 1) s = (t, .err r)) ∧
      (t.fault = none → t.wasBlocking = true → stepCall (n + 1) s = (t, .ok)) ∧
      (t.fault = none → t.wasBlocking = false → stepCall (n + 1) s = stepCall n t))

/-- R204, R325 (derived): in a step call was_blocking tells whether the last instruction was a key wait; with no fault
latched, one instruction step that leaves it set executed MOV Vx,K. -/
def Obligations.WasBlockingMeansKeyWait : Prop :=
  ∀ s t : State, s.fault = none → s.wasBlocking = false → instructionStep s = .next t → t.fault = none →
    (t.wasBlocking = true ↔ ∃ w x, fetch s = .ok w ∧ decode w = .ok (.movVxK x))

/-- R332: at a JMP to its own address the core steps for ever, and each step leaves all state unchanged (with no ticks due:
a tick is the host's). -/
def Obligations.SelfJumpLeavesAllUnchanged : Prop :=
  ∀ s : State, EndedNormally s → s.host.dueTicks = [] → ∀ n, Host.Core.run Sys2Proof.core n s = .next s

/-- R206, R308 (derived): ticks do not disturb the instruction stream: any number of them before a step changes only DT
and ST of the state that steps, they may come while a fault is latched, and then they keep it. -/
def Obligations.TicksAreASeparateAgent : Prop :=
  ∀ (n m : Nat) (s : State),
    tick n (tick m s) = tick (n + m) s ∧ (hostCall (.tick n) s).2 = .ok ∧ fetch (tick n s) = fetch s ∧
    (∀ r, s.fault = some r → (hostCall (.tick n) s).1.fault = some r ∧ instructionStep (tick n s) = .fault (.latched r))

/-- R421, R204, R331 (derived): under the host's weak fairness a key wait ends: the core waits until some call whose step is
answered with a key, and after that call Vx holds the key and PC is past the instruction. -/
def Obligations.KeyWaitEndsUnderFairness : Prop :=
  ∀ (calls : Nat → HostCall) (s : State) (x : Reg), HostFair calls s → AtKeyWait x s →
    ∃ m key, (∀ n, n ≤ m → AtKeyWait x (stateAt calls s n)) ∧ keyAnswer (stateAt calls s m) = some key ∧
      (getV (stateAt calls s (m + 1)) x).toNat = key.val ∧ (stateAt calls s (m + 1)).pc = s.pc + 2

/-- R421, R206 (derived): under the host's weak fairness a timer that no call of `step` changes runs down to 0; without it
the core changes no timer by itself. -/
def Obligations.TimersRunDownUnderFairness : Prop :=
  ∀ (calls : Nat → HostCall) (s : State), HostFair calls s →
    ((∀ m n, calls m = .step n → (stateAt calls s (m + 1)).dt = (stateAt calls s m).dt) →
      ∃ m, (stateAt calls s m).dt = 0) ∧
    ((∀ m n, calls m = .step n → (stateAt calls s (m + 1)).st = (stateAt calls s m).st) →
      ∃ m, (stateAt calls s m).st = 0)

/-- The model's placing of an instruction (assumption log 1): the very next step runs it, whether the state can be fetched
from or not. -/
def Obligations.PlacedWordIsRunNext : Prop :=
  ∀ (s : State) (w : Nat) (i : Instr), decodeTableWord 16 w = some i →
    step (State.withFetchWord s 16 w) = exec i (applyDueTicks (State.withFetchWord s 16 w))
end

