-- ==== Sys2Proof/Laws/Decode.lean ====
section
/-! SUPPORT. The fields of a word put together and taken apart, and well-formedness. -/

namespace Sys2Proof

theorem regOperand?_val (x : Reg) : regOperand? x.val = some x := dif_pos x.isLt
theorem rowsOperand?_val (n : Rows) : rowsOperand? n.val = some n := dif_pos n.isLt

theorem byteOperand?_toNat (b : Byte) : byteOperand? b.toNat = some b := by
  simp [byteOperand?, b.isLt]

theorem addrOperand?_toNat (a : Addr12) : addrOperand? a.toNat = some a := by
  simp [addrOperand?, a.isLt]

/-- The types of the operand fields make every instruction well formed (R71). -/
@[simp] theorem Instr.wellFormed_all (i : Instr) : i.wellFormed = true := by
  cases i <;>
    simp [Instr.wellFormed, AsmInstr.wellFormed, Instr.toAsm, AsmInstr.toInstr?, withReg, withAddr, withRegReg,
      withRegByte, regOperand?_val, rowsOperand?_val, byteOperand?_toNat, addrOperand?_toNat]

/-- A word is its high byte and its low byte. -/
@[simp] theorem wordOfBytes_hi_lo (w : Word) : wordOfBytes (hiByte w) (loByte w) = w := by
  apply BitVec.eq_of_getLsbD_eq
  intro i hi
  simp only [wordOfBytes, hiByte, loByte, BitVec.getLsbD_append, BitVec.getLsbD_extractLsb']
  by_cases h : i < 8
  · simp [h]
  · simp only [h, if_false, show i - 8 < 8 by omega, decide_true, Bool.true_and, show 8 + (i - 8) = i by omega]

/-! ### A word of each format reads back as its operands (R72, R98) -/

theorem extractLsb'_or (a b : Word) (start len : Nat) :
    (a ||| b).extractLsb' start len = a.extractLsb' start len ||| b.extractLsb' start len := by
  apply BitVec.eq_of_getLsbD_eq
  intro i hi
  simp [hi]

theorem or_and_distrib (a b m : Word) : (a ||| b) &&& m = a &&& m ||| b &&& m := by
  apply BitVec.eq_of_getLsbD_eq
  intro i hi
  simp [Bool.and_or_distrib_right]

theorem place_nnn (a : Addr12) : place .nnn a.toNat = zext12 a := by
  apply BitVec.eq_of_toNat_eq; simp [place, Field.nnn]

theorem place_kk (b : Byte) : place .kk b.toNat = zext8 b := by
  apply BitVec.eq_of_toNat_eq; simp [place, Field.kk]

theorem zext12_and (a : Addr12) : zext12 a &&& 0xF000 = 0 := by
  apply BitVec.eq_of_getLsbD_eq
  intro i hi
  simp only [BitVec.getLsbD_and, BitVec.getLsbD_setWidth]
  interval_cases i <;> simp

theorem zext8_and (a : Byte) : zext8 a &&& 0xF000 = 0 := by
  apply BitVec.eq_of_getLsbD_eq
  intro i hi
  simp only [BitVec.getLsbD_and, BitVec.getLsbD_setWidth]
  interval_cases i <;> simp

theorem extractLsb'_zext12 (a : Addr12) : (zext12 a).extractLsb' 0 12 = a := by
  apply BitVec.eq_of_getLsbD_eq
  intro i hi
  simp [hi]; omega

theorem extractLsb'_zext8 (a : Byte) : (zext8 a).extractLsb' 0 8 = a ∧ (zext8 a).extractLsb' 8 4 = 0 := by
  constructor <;> apply BitVec.eq_of_getLsbD_eq <;> intro i hi
  · simp [hi]; omega
  · simp

/-- What a register index placed in `x` adds to the masked bits and to the fields. -/
theorem place_x : ∀ x : Reg, place .x x &&& 0xF000 = 0 ∧ place .x x &&& 0xF00F = 0 ∧ place .x x &&& 0xF0FF = 0 ∧
    (place .x x).extractLsb' 0 8 = 0 ∧ (place .x x).extractLsb' 4 4 = 0 ∧ (place .x x).extractLsb' 0 4 = 0 ∧
    (place .x x).extractLsb' 8 4 = BitVec.ofFin x := by decide

/-- The same of `y`. -/
theorem place_y : ∀ y : Reg, place .y y &&& 0xF000 = 0 ∧ place .y y &&& 0xF00F = 0 ∧ (place .y y).extractLsb' 8 4 = 0 ∧
    (place .y y).extractLsb' 0 4 = 0 ∧ (place .y y).extractLsb' 4 4 = BitVec.ofFin y := by decide

/-- The same of `n`. -/
theorem place_n : ∀ n : Rows, place .n n &&& 0xF000 = 0 ∧ (place .n n).extractLsb' 8 4 = 0 ∧
    (place .n n).extractLsb' 4 4 = 0 ∧ (place .n n).extractLsb' 0 4 = BitVec.ofFin n := by decide

/-- A word is in a row and the row makes an instruction of it. -/
def Row.Reads (r : Row) (w : Word) (i : Instr) : Prop := r.matches w = true ∧ r.build w = i

theorem reads_NNN {base : Word} (form : Addr12 → Instr) (fixed : base &&& 0xF000 = base) (low : base.extractLsb' 0 12 = 0)
    (nnn : Addr12) : (rowNNN base form).Reads (encodeNNN base nnn) (form nnn) := by
  have mask : (rowNNN base form).mask = 0xF000 := by show ~~~ (0 ||| Field.mask .nnn) = _; decide
  constructor
  · simp only [Row.matches, mask, encodeNNN, place_nnn, or_and_distrib, fixed, zext12_and, beq_iff_eq]
    exact BitVec.or_zero
  · show form (nnnOf _) = form nnn
    simp only [nnnOf, encodeNNN, place_nnn, extractLsb'_or, low, extractLsb'_zext12]
    exact congrArg form BitVec.zero_or

theorem reads_XKK {base : Word} (form : Reg → Byte → Instr) (fixed : base &&& 0xF000 = base)
    (hx : base.extractLsb' 8 4 = 0) (hk : base.extractLsb' 0 8 = 0) (x : Reg) (kk : Byte) :
    (rowXKK base form).Reads (encodeXKK base x kk) (form x kk) := by
  obtain ⟨a, _, _, b, _, _, c⟩ := place_x x
  have mask : (rowXKK base form).mask = 0xF000 := by show ~~~ (0 ||| Field.mask .x ||| Field.mask .kk) = _; decide
  constructor
  · simp only [Row.matches, mask, encodeXKK, place_kk, or_and_distrib, fixed, a, zext8_and, beq_iff_eq]
    simp [rowXKK]
  · show form (xOf _) (kkOf _) = form x kk
    simp only [xOf, kkOf, encodeXKK, place_kk, extractLsb'_or, hx, hk, b, c, extractLsb'_zext8]
    simp

theorem reads_XY {base : Word} (form : Reg → Reg → Instr) (fixed : base &&& 0xF00F = base)
    (hx : base.extractLsb' 8 4 = 0) (hy : base.extractLsb' 4 4 = 0) (x y : Reg) :
    (rowXY base form).Reads (encodeXY base x y) (form x y) := by
  obtain ⟨_, a, _, _, b, _, c⟩ := place_x x
  obtain ⟨_, d, e, _, f⟩ := place_y y
  have mask : (rowXY base form).mask = 0xF00F := by show ~~~ (0 ||| Field.mask .x ||| Field.mask .y) = _; decide
  constructor
  · simp only [Row.matches, mask, encodeXY, or_and_distrib, fixed, a, d, beq_iff_eq]
    simp [rowXY]
  · show form (xOf _) (yOf _) = form x y
    simp only [xOf, yOf, encodeXY, extractLsb'_or, hx, hy, b, c, e, f]
    simp

theorem reads_XYN {base : Word} (form : Reg → Reg → Rows → Instr) (fixed : base &&& 0xF000 = base)
    (hx : base.extractLsb' 8 4 = 0) (hy : base.extractLsb' 4 4 = 0) (hn : base.extractLsb' 0 4 = 0) (x y : Reg) (n : Rows) :
    (rowXYN base form).Reads (encodeXYN base x y n) (form x y n) := by
  obtain ⟨a, _, _, _, b, b', c⟩ := place_x x
  obtain ⟨d, _, e, e', f⟩ := place_y y
  obtain ⟨g, i, i', j⟩ := place_n n
  have mask : (rowXYN base form).mask = 0xF000 := by
    show ~~~ (0 ||| Field.mask .x ||| Field.mask .y ||| Field.mask .n) = _; decide
  constructor
  · simp only [Row.matches, mask, encodeXYN, or_and_distrib, fixed, a, d, g, beq_iff_eq]
    simp [rowXYN]
  · show form (xOf _) (yOf _) (nOf _) = form x y n
    simp only [xOf, yOf, nOf, encodeXYN, extractLsb'_or, hx, hy, hn, b, b', c, e, e', f, i, i', j]
    simp

theorem reads_XFF {base : Word} (form : Reg → Instr) (fixed : base &&& 0xF0FF = base) (hx : base.extractLsb' 8 4 = 0)
    (x : Reg) : (rowXFF base form).Reads (encodeXFF base x) (form x) := by
  obtain ⟨_, _, a, _, _, _, c⟩ := place_x x
  have mask : (rowXFF base form).mask = 0xF0FF := by show ~~~ (0 ||| Field.mask .x) = _; decide
  constructor
  · simp only [Row.matches, mask, encodeXFF, or_and_distrib, fixed, a, beq_iff_eq]
    simp [rowXFF]
  · show form (xOf _) = form x
    simp only [xOf, encodeXFF, extractLsb'_or, hx, c]
    simp

end Sys2Proof
end

