-- ==== Sys2Proof/Laws/Memory.lean ====
section
/-! SUPPORT. What the memory operations do: read after write, the canonical form, and the range check. -/

namespace Sys2Proof.Machine

variable {cf : Config}

/-! ### Reading -/

@[simp] theorem readByte_nil (a : Nat) : readByte cf [] a = unlistedByte cf a := rfl

theorem readByte_cons (k : Nat) (b : Byte) (m : Memory) (a : Nat) :
    readByte cf ((k, b) :: m) a = if k = a then b else readByte cf m a := rfl

@[simp] theorem length_readBytes (m : Memory) (a n : Nat) : (readBytes cf m a n).length = n := by
  induction n generalizing a with
  | zero => rfl
  | succ n ih => simp [readBytes, ih]

theorem getD_readBytes (m : Memory) (a n k : Nat) (h : k < n) : (readBytes cf m a n).getD k 0 = readByte cf m (a + k) := by
  induction n generalizing a k with
  | zero => omega
  | succ n ih =>
    cases k with
    | zero => simp [readBytes]
    | succ k =>
      have := ih (a + 1) k (by omega)
      simpa [readBytes, Nat.add_assoc, Nat.add_comm 1 k] using this

/-- Two memories that read alike over a range give the same bytes of it. -/
theorem readBytes_congr {m m' : Memory} {a n : Nat} (h : ∀ k, k < n → readByte cf m (a + k) = readByte cf m' (a + k)) :
    readBytes cf m a n = readBytes cf m' a n := by
  induction n generalizing a with
  | zero => rfl
  | succ n ih =>
    have tail : readBytes cf m (a + 1) n = readBytes cf m' (a + 1) n :=
      ih fun k hk => by simpa [Nat.add_assoc, Nat.add_comm 1 k] using h (k + 1) (by omega)
    simpa [readBytes, tail] using h 0 (by omega)

/-! ### Writing -/

theorem readByte_eraseCell (m : Memory) (a b : Nat) :
    readByte cf (eraseCell m a) b = if b = a then unlistedByte cf a else readByte cf m b := by
  induction m with
  | nil => simp only [eraseCell, readByte]; split <;> simp_all
  | cons cell rest ih =>
    obtain ⟨k, c⟩ := cell
    by_cases hk : k = a
    · simp only [eraseCell, hk, if_true, ih, readByte_cons]
      by_cases hb : b = a
      · simp [hb]
      · simp [hb, Ne.symm hb]
    · simp only [eraseCell, hk, if_false, readByte_cons, ih]
      by_cases hb : b = a
      · subst hb; simp [hk]
      · simp [hb]

theorem readByte_insertCell (m : Memory) (a b : Nat) (v : Byte) (absent : ∀ c, (a, c) ∉ m) :
    readByte cf (insertCell m a v) b = if b = a then v else readByte cf m b := by
  induction m with
  | nil => simp [insertCell, readByte_cons, eq_comm]
  | cons cell rest ih =>
    obtain ⟨k, c⟩ := cell
    have hka : k ≠ a := fun h => absent c (by simp [h])
    have ih := ih fun c' h => absent c' (List.mem_cons_of_mem _ h)
    by_cases h : a < k
    · simp [insertCell, h, readByte_cons, eq_comm]
    · simp only [insertCell, h, if_false, readByte_cons, ih]
      by_cases hb : b = a
      · subst hb; simp [hka]
      · simp [hb]

theorem not_mem_eraseCell (m : Memory) (a : Nat) (c : Byte) : (a, c) ∉ eraseCell m a := by
  induction m with
  | nil => simp [eraseCell]
  | cons cell rest ih =>
    obtain ⟨k, d⟩ := cell
    by_cases hk : k = a
    · simpa [eraseCell, hk] using ih
    · simp only [eraseCell, hk, if_false, List.mem_cons, not_or]
      exact ⟨fun h => hk (congrArg Prod.fst h).symm, ih⟩

/-- Everything a write does to what memory reads as, in any list of cells. -/
theorem readByte_writeByte_eq (m : Memory) (a b : Nat) (v : Byte) :
    readByte cf (writeByte cf m a v) b = (if b = a then v else readByte cf m b) := by
  unfold writeByte
  split
  · next h => rw [readByte_eraseCell]; split <;> simp_all
  · rw [readByte_insertCell _ _ _ _ fun c => not_mem_eraseCell m a c, readByte_eraseCell]
    split <;> rfl

/-- Everything a run of writes does to what memory reads as. -/
theorem readByte_writeBytes (m : Memory) (a b : Nat) (bytes : List Byte) :
    readByte cf (writeBytes cf m a bytes) b =
      if a ≤ b ∧ b < a + bytes.length then bytes.getD (b - a) 0 else readByte cf m b := by
  induction bytes generalizing m a with
  | nil => simp [writeBytes]
  | cons v rest ih =>
    simp only [writeBytes, ih, readByte_writeByte_eq, List.length_cons]
    by_cases hb : b = a
    · subst hb; simp
    · by_cases hr : a + 1 ≤ b ∧ b < a + 1 + rest.length
      · have : b - a = (b - (a + 1)) + 1 := by omega
        rw [if_pos hr, if_pos (by omega), this, List.getD_cons_succ]
      · rw [if_neg hr, if_neg hb, if_neg (by omega)]

theorem readByte_writeBytes_at (m : Memory) (a k : Nat) (bytes : List Byte) (h : k < bytes.length) :
    readByte cf (writeBytes cf m a bytes) (a + k) = bytes.getD k 0 := by
  rw [readByte_writeBytes, if_pos (by omega), Nat.add_sub_cancel_left]

theorem readByte_writeBytes_outside (m : Memory) (a b : Nat) (bytes : List Byte) (h : b < a ∨ a + bytes.length ≤ b) :
    readByte cf (writeBytes cf m a bytes) b = readByte cf m b := by
  rw [readByte_writeBytes, if_neg (by omega)]

/-! ### The canonical form -/

theorem wfFrom_cons (lo k : Nat) (b : Byte) (m : Memory) :
    wfFrom cf lo ((k, b) :: m) = true ↔
      lo ≤ k ∧ k < cf.memSize ∧ b ≠ unlistedByte cf k ∧ wfFrom cf (k + 1) m = true := by
  simp [wfFrom, and_assoc]

theorem wfFrom_mono {lo lo' : Nat} {m : Memory} (h : wfFrom cf lo m = true) (le : lo' ≤ lo) : wfFrom cf lo' m = true := by
  cases m with
  | nil => rfl
  | cons cell rest =>
    rw [wfFrom_cons] at h ⊢
    exact ⟨by omega, h.2⟩

theorem wfFrom_eraseCell {lo : Nat} {m : Memory} (a : Nat) (h : wfFrom cf lo m = true) : wfFrom cf lo (eraseCell m a) = true := by
  induction m generalizing lo with
  | nil => rfl
  | cons cell rest ih =>
    obtain ⟨k, c⟩ := cell
    rw [wfFrom_cons] at h
    obtain ⟨hlo, hk, hc, hrest⟩ := h
    by_cases hka : k = a
    · simpa [eraseCell, hka] using wfFrom_mono (ih hrest) (by omega)
    · simpa [eraseCell, hka] using (wfFrom_cons ..).2 ⟨hlo, hk, hc, ih hrest⟩

theorem wfFrom_insertCell {lo : Nat} {m : Memory} {a : Nat} {v : Byte} (h : wfFrom cf lo m = true) (hlo : lo ≤ a)
    (ha : a < cf.memSize) (hv : v ≠ unlistedByte cf a) (absent : ∀ c, (a, c) ∉ m) :
    wfFrom cf lo (insertCell m a v) = true := by
  induction m generalizing lo with
  | nil => exact (wfFrom_cons ..).2 ⟨hlo, ha, hv, rfl⟩
  | cons cell rest ih =>
    obtain ⟨k, c⟩ := cell
    have hka : k ≠ a := fun e => absent c (by simp [e])
    rw [wfFrom_cons] at h
    obtain ⟨hlok, hk, hc, hrest⟩ := h
    by_cases hlt : a < k
    · simp only [insertCell, hlt, if_true]
      exact (wfFrom_cons ..).2 ⟨hlo, ha, hv, (wfFrom_cons ..).2 ⟨by omega, hk, hc, hrest⟩⟩
    · simp only [insertCell, hlt, if_false]
      exact (wfFrom_cons ..).2
        ⟨hlok, hk, hc, ih hrest (by omega) fun c' m => absent c' (List.mem_cons_of_mem _ m)⟩

/-- A write inside memory keeps the canonical form. -/
theorem wf_of_writeByte {m : Memory} {a : Nat} (v : Byte) (h : Memory.wf cf m = true) (ha : a < cf.memSize) :
    Memory.wf cf (writeByte cf m a v) = true := by
  unfold writeByte
  split
  · exact wfFrom_eraseCell a h
  · next hv => exact wfFrom_insertCell (wfFrom_eraseCell a h) (by omega) ha hv fun c => not_mem_eraseCell m a c

/-- A run of writes inside memory keeps the canonical form. -/
theorem wf_of_writeBytes {m : Memory} {a : Nat} {bytes : List Byte} (h : Memory.wf cf m = true)
    (ha : a + bytes.length ≤ cf.memSize) : Memory.wf cf (writeBytes cf m a bytes) = true := by
  induction bytes generalizing m a with
  | nil => exact h
  | cons v rest ih =>
    simp only [List.length_cons] at ha
    exact ih (wf_of_writeByte v h (by omega)) (by omega)

theorem wf_nil : Memory.wf cf [] = true := rfl

/-- Below its first cell a canonical memory reads as unlisted. -/
theorem readByte_below {lo a : Nat} {m : Memory} (h : wfFrom cf lo m = true) (ha : a < lo) : readByte cf m a = unlistedByte cf a := by
  induction m generalizing lo with
  | nil => rfl
  | cons cell rest ih =>
    obtain ⟨k, c⟩ := cell
    rw [wfFrom_cons] at h
    rw [readByte_cons, if_neg (by omega), ih h.2.2.2 (by omega)]

/-! ### The range check -/

/-- The range check passes exactly on ranges inside memory (R53). -/
theorem rangeFault_eq_none {a n : Nat} (hn : 1 ≤ n) : rangeFault cf a n = none ↔ a + n ≤ cf.memSize := by
  unfold rangeFault
  split <;> simp <;> omega

/-- A failing range check names the lowest out-of-range address (R53). -/
theorem rangeFault_eq_some {a n bad : Nat} :
    rangeFault cf a n = some bad ↔ a + n - 1 ≥ cf.memSize ∧ bad = max a cf.memSize := by
  unfold rangeFault
  split <;> simp_all [eq_comm]

end Sys2Proof.Machine
end

