-- ==== Sys2Proof/Laws/State.lean ====
section
/-! SUPPORT. One lemma per field per named update of the state, true by rfl, so that no later proof unfolds an update;
and the registers as `getV` reads them. -/

namespace Sys2Proof.Machine

variable (s : State)

/-! ### setV -/

@[simp] theorem setV_config (r : Reg) (b : Byte) : (setV r b s).config = s.config := rfl
@[simp] theorem setV_v (r : Reg) (b : Byte) : (setV r b s).v = s.v.set r b := rfl
@[simp] theorem setV_i (r : Reg) (b : Byte) : (setV r b s).i = s.i := rfl
@[simp] theorem setV_pc (r : Reg) (b : Byte) : (setV r b s).pc = s.pc := rfl
@[simp] theorem setV_dt (r : Reg) (b : Byte) : (setV r b s).dt = s.dt := rfl
@[simp] theorem setV_st (r : Reg) (b : Byte) : (setV r b s).st = s.st := rfl
@[simp] theorem setV_stack (r : Reg) (b : Byte) : (setV r b s).stack = s.stack := rfl
@[simp] theorem setV_sp (r : Reg) (b : Byte) : (setV r b s).sp = s.sp := rfl
@[simp] theorem setV_fb (r : Reg) (b : Byte) : (setV r b s).fb = s.fb := rfl
@[simp] theorem setV_mem (r : Reg) (b : Byte) : (setV r b s).mem = s.mem := rfl
@[simp] theorem setV_wasBlocking (r : Reg) (b : Byte) : (setV r b s).wasBlocking = s.wasBlocking := rfl
@[simp] theorem setV_fault (r : Reg) (b : Byte) : (setV r b s).fault = s.fault := rfl
@[simp] theorem setV_host (r : Reg) (b : Byte) : (setV r b s).host = s.host := rfl

/-! ### advance -/

@[simp] theorem advance_config : (advance s).config = s.config := rfl
@[simp] theorem advance_v : (advance s).v = s.v := rfl
@[simp] theorem advance_i : (advance s).i = s.i := rfl
@[simp] theorem advance_pc : (advance s).pc = s.pc + 2 := by simp [advance, s.config.valid.insnBytes]
@[simp] theorem advance_dt : (advance s).dt = s.dt := rfl
@[simp] theorem advance_st : (advance s).st = s.st := rfl
@[simp] theorem advance_stack : (advance s).stack = s.stack := rfl
@[simp] theorem advance_sp : (advance s).sp = s.sp := rfl
@[simp] theorem advance_fb : (advance s).fb = s.fb := rfl
@[simp] theorem advance_mem : (advance s).mem = s.mem := rfl
@[simp] theorem advance_wasBlocking : (advance s).wasBlocking = s.wasBlocking := rfl
@[simp] theorem advance_fault : (advance s).fault = s.fault := rfl
@[simp] theorem advance_host : (advance s).host = s.host := rfl

/-! ### skipIf -/

@[simp] theorem skipIf_config (c : Bool) : (skipIf c s).config = s.config := rfl
@[simp] theorem skipIf_v (c : Bool) : (skipIf c s).v = s.v := rfl
@[simp] theorem skipIf_i (c : Bool) : (skipIf c s).i = s.i := rfl
@[simp] theorem skipIf_pc (c : Bool) : (skipIf c s).pc = s.pc + (if c then 4 else 2) := by
  cases c <;> simp [skipIf, s.config.valid.insnBytes]
@[simp] theorem skipIf_dt (c : Bool) : (skipIf c s).dt = s.dt := rfl
@[simp] theorem skipIf_st (c : Bool) : (skipIf c s).st = s.st := rfl
@[simp] theorem skipIf_stack (c : Bool) : (skipIf c s).stack = s.stack := rfl
@[simp] theorem skipIf_sp (c : Bool) : (skipIf c s).sp = s.sp := rfl
@[simp] theorem skipIf_fb (c : Bool) : (skipIf c s).fb = s.fb := rfl
@[simp] theorem skipIf_mem (c : Bool) : (skipIf c s).mem = s.mem := rfl
@[simp] theorem skipIf_wasBlocking (c : Bool) : (skipIf c s).wasBlocking = s.wasBlocking := rfl
@[simp] theorem skipIf_fault (c : Bool) : (skipIf c s).fault = s.fault := rfl
@[simp] theorem skipIf_host (c : Bool) : (skipIf c s).host = s.host := rfl

/-! ### redirect -/

@[simp] theorem redirect_config (w : Word) : (redirect w s).config = s.config := rfl
@[simp] theorem redirect_v (w : Word) : (redirect w s).v = s.v := rfl
@[simp] theorem redirect_i (w : Word) : (redirect w s).i = s.i := rfl
@[simp] theorem redirect_pc (w : Word) : (redirect w s).pc = w := rfl
@[simp] theorem redirect_dt (w : Word) : (redirect w s).dt = s.dt := rfl
@[simp] theorem redirect_st (w : Word) : (redirect w s).st = s.st := rfl
@[simp] theorem redirect_stack (w : Word) : (redirect w s).stack = s.stack := rfl
@[simp] theorem redirect_sp (w : Word) : (redirect w s).sp = s.sp := rfl
@[simp] theorem redirect_fb (w : Word) : (redirect w s).fb = s.fb := rfl
@[simp] theorem redirect_mem (w : Word) : (redirect w s).mem = s.mem := rfl
@[simp] theorem redirect_wasBlocking (w : Word) : (redirect w s).wasBlocking = s.wasBlocking := rfl
@[simp] theorem redirect_fault (w : Word) : (redirect w s).fault = s.fault := rfl
@[simp] theorem redirect_host (w : Word) : (redirect w s).host = s.host := rfl

/-! ### storeBytes -/

@[simp] theorem storeBytes_config (a : Nat) (bs : List Byte) : (storeBytes a bs s).config = s.config := rfl
@[simp] theorem storeBytes_v (a : Nat) (bs : List Byte) : (storeBytes a bs s).v = s.v := rfl
@[simp] theorem storeBytes_i (a : Nat) (bs : List Byte) : (storeBytes a bs s).i = s.i := rfl
@[simp] theorem storeBytes_pc (a : Nat) (bs : List Byte) : (storeBytes a bs s).pc = s.pc := rfl
@[simp] theorem storeBytes_dt (a : Nat) (bs : List Byte) : (storeBytes a bs s).dt = s.dt := rfl
@[simp] theorem storeBytes_st (a : Nat) (bs : List Byte) : (storeBytes a bs s).st = s.st := rfl
@[simp] theorem storeBytes_stack (a : Nat) (bs : List Byte) : (storeBytes a bs s).stack = s.stack := rfl
@[simp] theorem storeBytes_sp (a : Nat) (bs : List Byte) : (storeBytes a bs s).sp = s.sp := rfl
@[simp] theorem storeBytes_fb (a : Nat) (bs : List Byte) : (storeBytes a bs s).fb = s.fb := rfl
@[simp] theorem storeBytes_wasBlocking (a : Nat) (bs : List Byte) : (storeBytes a bs s).wasBlocking = s.wasBlocking := rfl
@[simp] theorem storeBytes_fault (a : Nat) (bs : List Byte) : (storeBytes a bs s).fault = s.fault := rfl
@[simp] theorem storeBytes_host (a : Nat) (bs : List Byte) : (storeBytes a bs s).host = s.host := rfl
@[simp] theorem storeBytes_mem (a : Nat) (bs : List Byte) : (storeBytes a bs s).mem = writeBytes s.config s.mem a bs := rfl

/-! ### tick -/

@[simp] theorem tick_config (n : Nat) : (tick n s).config = s.config := rfl
@[simp] theorem tick_v (n : Nat) : (tick n s).v = s.v := rfl
@[simp] theorem tick_i (n : Nat) : (tick n s).i = s.i := rfl
@[simp] theorem tick_pc (n : Nat) : (tick n s).pc = s.pc := rfl
@[simp] theorem tick_dt (n : Nat) : (tick n s).dt = BitVec.ofNat 8 (s.dt.toNat - n) := rfl
@[simp] theorem tick_st (n : Nat) : (tick n s).st = BitVec.ofNat 8 (s.st.toNat - n) := rfl
@[simp] theorem tick_stack (n : Nat) : (tick n s).stack = s.stack := rfl
@[simp] theorem tick_sp (n : Nat) : (tick n s).sp = s.sp := rfl
@[simp] theorem tick_fb (n : Nat) : (tick n s).fb = s.fb := rfl
@[simp] theorem tick_mem (n : Nat) : (tick n s).mem = s.mem := rfl
@[simp] theorem tick_wasBlocking (n : Nat) : (tick n s).wasBlocking = s.wasBlocking := rfl
@[simp] theorem tick_fault (n : Nat) : (tick n s).fault = s.fault := rfl
@[simp] theorem tick_host (n : Nat) : (tick n s).host = s.host := rfl

/-! ### atPc -/

@[simp] theorem atPc_config (w : Word) : (atPc w s).config = s.config := rfl
@[simp] theorem atPc_v (w : Word) : (atPc w s).v = s.v := rfl
@[simp] theorem atPc_i (w : Word) : (atPc w s).i = s.i := rfl
@[simp] theorem atPc_pc (w : Word) : (atPc w s).pc = w := rfl
@[simp] theorem atPc_dt (w : Word) : (atPc w s).dt = s.dt := rfl
@[simp] theorem atPc_st (w : Word) : (atPc w s).st = s.st := rfl
@[simp] theorem atPc_stack (w : Word) : (atPc w s).stack = s.stack := rfl
@[simp] theorem atPc_sp (w : Word) : (atPc w s).sp = s.sp := rfl
@[simp] theorem atPc_fb (w : Word) : (atPc w s).fb = s.fb := rfl
@[simp] theorem atPc_mem (w : Word) : (atPc w s).mem = s.mem := rfl
@[simp] theorem atPc_wasBlocking (w : Word) : (atPc w s).wasBlocking = s.wasBlocking := rfl
@[simp] theorem atPc_fault (w : Word) : (atPc w s).fault = s.fault := rfl
@[simp] theorem atPc_host (w : Word) : (atPc w s).host = s.host := rfl

/-! ### applyDueTicks -/

@[simp] theorem applyDueTicks_config : (applyDueTicks s).config = s.config := by unfold applyDueTicks; split <;> rfl
@[simp] theorem applyDueTicks_v : (applyDueTicks s).v = s.v := by unfold applyDueTicks; split <;> rfl
@[simp] theorem applyDueTicks_i : (applyDueTicks s).i = s.i := by unfold applyDueTicks; split <;> rfl
@[simp] theorem applyDueTicks_pc : (applyDueTicks s).pc = s.pc := by unfold applyDueTicks; split <;> rfl
@[simp] theorem applyDueTicks_stack : (applyDueTicks s).stack = s.stack := by unfold applyDueTicks; split <;> rfl
@[simp] theorem applyDueTicks_sp : (applyDueTicks s).sp = s.sp := by unfold applyDueTicks; split <;> rfl
@[simp] theorem applyDueTicks_fb : (applyDueTicks s).fb = s.fb := by unfold applyDueTicks; split <;> rfl
@[simp] theorem applyDueTicks_mem : (applyDueTicks s).mem = s.mem := by unfold applyDueTicks; split <;> rfl
@[simp] theorem applyDueTicks_wasBlocking : (applyDueTicks s).wasBlocking = s.wasBlocking := by unfold applyDueTicks; split <;> rfl
@[simp] theorem applyDueTicks_fault : (applyDueTicks s).fault = s.fault := by unfold applyDueTicks; split <;> rfl

/-- With no ticks planned the state is as it was. -/
theorem applyDueTicks_of_nil (h : s.host.dueTicks = []) : applyDueTicks s = s := by
  unfold applyDueTicks; rw [h]

/-- With ticks planned the host applies the first number of them. -/
theorem applyDueTicks_of_cons (n : Nat) (rest : List Nat) (h : s.host.dueTicks = n :: rest) :
    applyDueTicks s = { tick n s with host := { s.host with dueTicks := rest } } := by
  unfold applyDueTicks; rw [h]

/-! ### Registers -/

/-- Two states read alike in every register when their register files are one. -/
theorem getV_congr {s t : State} (h : t.v = s.v) (r : Reg) : getV t r = getV s r := by unfold getV; rw [h]

@[simp] theorem getV_setV (x r : Reg) (b : Byte) : getV (setV x b s) r = if r = x then b else getV s r := by
  simp only [getV, setV, Vector.get_eq_getElem]
  by_cases h : r = x
  · subst h; simp
  · rw [Vector.getElem_set_ne _ _ fun e => h (Fin.ext e.symm)]; simp [h]

@[simp] theorem getV_advance (r : Reg) : getV (advance s) r = getV s r := rfl
@[simp] theorem getV_skipIf (c : Bool) (r : Reg) : getV (skipIf c s) r = getV s r := rfl
@[simp] theorem getV_redirect (w : Word) (r : Reg) : getV (redirect w s) r = getV s r := rfl
@[simp] theorem getV_tick (n : Nat) (r : Reg) : getV (tick n s) r = getV s r := rfl
@[simp] theorem getV_atPc (w : Word) (r : Reg) : getV (atPc w s) r = getV s r := rfl
@[simp] theorem getV_applyDueTicks (r : Reg) : getV (applyDueTicks s) r = getV s r := getV_congr (applyDueTicks_v s) r

/-! ### Memory and the call stack -/

/-- Two states read alike at every address when their configurations and memories are one. -/
theorem byteAt_congr {s t : State} (config : t.config = s.config) (mem : t.mem = s.mem) (a : Nat) :
    byteAt t a = byteAt s a := by unfold byteAt; rw [config, mem]

@[simp] theorem byteAt_setV (r : Reg) (b : Byte) (a : Nat) : byteAt (setV r b s) a = byteAt s a := rfl
@[simp] theorem byteAt_advance (a : Nat) : byteAt (advance s) a = byteAt s a := rfl
@[simp] theorem byteAt_skipIf (c : Bool) (a : Nat) : byteAt (skipIf c s) a = byteAt s a := rfl
@[simp] theorem byteAt_redirect (w : Word) (a : Nat) : byteAt (redirect w s) a = byteAt s a := rfl
@[simp] theorem byteAt_tick (n a : Nat) : byteAt (tick n s) a = byteAt s a := rfl
@[simp] theorem byteAt_atPc (w : Word) (a : Nat) : byteAt (atPc w s) a = byteAt s a := rfl
@[simp] theorem byteAt_applyDueTicks (a : Nat) : byteAt (applyDueTicks s) a = byteAt s a :=
  byteAt_congr (applyDueTicks_config s) (applyDueTicks_mem s) a

/-- A range of memory reads as many bytes as it has. -/
@[simp] theorem length_bytesAt (a n : Nat) : (bytesAt s a n).length = n := length_readBytes s.mem a n

/-- Two states hold the same bytes where they read alike. -/
theorem bytesAt_congr {s t : State} (same : ∀ a, byteAt t a = byteAt s a) (a n : Nat) : bytesAt t a n = bytesAt s a n := by
  induction n generalizing a with
  | zero => rfl
  | succ n ih =>
    have head := same a
    have tail := ih (a + 1)
    simp only [byteAt] at head
    simp only [bytesAt] at tail
    simp only [bytesAt, readBytes, head, tail]

/-- Two states have the same entries when their stack arrays are one. -/
theorem stackEntry_congr {s t : State} (h : t.stack = s.stack) (k : Nat) : stackEntry t k = stackEntry s k := by
  unfold stackEntry; rw [h]

/-! ### Frames -/

@[simp] theorem samePart_refl (p : Part) : samePart p s s := by cases p <;> simp [samePart]

/-- A frame holds with more parts listed. -/
theorem KeepsExcept.mono {parts more : List Part} {s t : State} (h : KeepsExcept parts s t) (sub : parts ⊆ more) :
    KeepsExcept more s t := fun p hp => h p fun q => hp (sub q)

@[simp] theorem keepsExcept_refl (parts : List Part) : KeepsExcept parts s s := fun p _ => samePart_refl s p

/-- A frame from the fields: the configuration is the same, and each other part is listed or its field is the same. -/
theorem keepsExcept_of_fields {parts : List Part} {s t : State} (config : t.config = s.config)
    (v : Part.v ∈ parts ∨ t.v = s.v)
    (i : Part.i ∈ parts ∨ t.i = s.i) (pc : Part.pc ∈ parts ∨ t.pc = s.pc) (dt : Part.dt ∈ parts ∨ t.dt = s.dt)
    (st : Part.st ∈ parts ∨ t.st = s.st) (stack : Part.stack ∈ parts ∨ t.stack = s.stack)
    (sp : Part.sp ∈ parts ∨ t.sp = s.sp) (fb : Part.fb ∈ parts ∨ t.fb = s.fb) (mem : Part.mem ∈ parts ∨ t.mem = s.mem)
    (blocking : Part.wasBlocking ∈ parts ∨ t.wasBlocking = s.wasBlocking) (fault : Part.fault ∈ parts ∨ t.fault = s.fault)
    (host : Part.host ∈ parts ∨ t.host = s.host) : KeepsExcept parts s t := fun p hp => by
  cases p with
  | config => exact config
  | v => exact getV_congr (v.resolve_left hp)
  | i => exact i.resolve_left hp
  | pc => exact pc.resolve_left hp
  | dt => exact dt.resolve_left hp
  | st => exact st.resolve_left hp
  | stack => exact stack.resolve_left hp
  | sp => exact sp.resolve_left hp
  | fb => exact fb.resolve_left hp
  | mem => exact byteAt_congr config (mem.resolve_left hp)
  | wasBlocking => exact blocking.resolve_left hp
  | fault => exact fault.resolve_left hp
  | host => exact host.resolve_left hp

end Sys2Proof.Machine
end

