-- ==== Sys2Proof/Laws/Ops.lean ====
section
/-! SUPPORT. One lemma per shared operation: everything it can do. -/

namespace Sys2Proof.Machine

/-- Taking a fault: the next state, with the latch set and nothing else changed (R39). -/
@[simp] theorem raise_eq_next (r : FaultRecord) (s t : State) : raise r s = .next t ↔ t = { s with fault := some r } := by
  simp [raise, eq_comm]

/-- A checked instruction goes on where its range is memory (R53). -/
theorem checked_of_fits {i : Instr} {a n : Nat} {s rest : State} (hn : 1 ≤ n) (h : a + n ≤ s.config.memSize) :
    checked i a n s rest = .next rest := by
  unfold checked
  rw [(rangeFault_eq_none hn).2 h]

/-- A checked instruction only faults where its range leaves memory (R53). -/
theorem checked_of_overrun {i : Instr} {a n : Nat} {s rest : State} (h : a + n - 1 ≥ s.config.memSize) :
    checked i a n s rest =
      .next { s with fault := some ⟨.memoryBounds, s.pc, some (encode i), some (max a s.config.memSize), none⟩ } := by
  unfold checked
  rw [rangeFault_eq_some.2 ⟨h, rfl⟩]
  rfl

/-- Everything a checked instruction can do. -/
theorem checked_cases (i : Instr) (a n : Nat) (s rest : State) :
    checked i a n s rest = .next rest ∨ ∃ bad, s.config.memSize ≤ bad ∧
      checked i a n s rest = .next { s with fault := some ⟨.memoryBounds, s.pc, some (encode i), some bad, none⟩ } := by
  unfold checked
  cases h : rangeFault s.config a n with
  | none => exact .inl rfl
  | some bad => exact .inr ⟨bad, by rw [rangeFault_eq_some] at h; omega, rfl⟩

/-- A push onto a stack with room (R32). -/
theorem push?_of_room {w : Word} {s : State} (h : s.sp < s.config.stackDepth) :
    push? w s = some { s with stack := s.stack.set s.sp w, sp := s.sp + 1 } := if_pos h

/-- A push onto a full stack (R32). -/
theorem push?_of_full {w : Word} {s : State} (h : s.config.stackDepth ≤ s.sp) : push? w s = none :=
  if_neg (by omega)

/-- A pop from a stack whose top entry is number k (R33). -/
theorem pop?_of_entry {s : State} {k : Nat} (h : s.sp = k + 1) : pop? s = some (stackEntry s k, { s with sp := k }) := by
  unfold pop?; rw [h]

/-- A pop from an empty stack (R33). -/
theorem pop?_of_empty {s : State} (h : s.sp = 0) : pop? s = none := by
  unfold pop?; rw [h]

/-- The entries after a write to one of them. -/
theorem getD_set (stack : List Word) (j k : Nat) (w : Word) (h : j < stack.length) :
    (stack.set j w).getD k 0 = if k = j then w else stack.getD k 0 := by
  by_cases e : k = j
  · subst e; simp [h]
  · simp [List.getD_eq_getElem?_getD, List.getElem?_set_ne (Ne.symm e), e]

/-- What a state with bytes stored reads as, where they stand. -/
theorem byteAt_storeBytes_at (s : State) (a k : Nat) (bytes : List Byte) (h : k < bytes.length) :
    byteAt (storeBytes a bytes s) (a + k) = bytes.getD k 0 := readByte_writeBytes_at s.mem a k bytes h

/-- What a state with bytes stored reads as, everywhere else. -/
theorem byteAt_storeBytes_outside (s : State) (a b : Nat) (bytes : List Byte) (h : b < a ∨ a + bytes.length ≤ b) :
    byteAt (storeBytes a bytes s) b = byteAt s b := readByte_writeBytes_outside s.mem a b bytes h

/-- The key operand is the key whose number V[x] holds (R190). -/
theorem keyOperand?_eq_some {x : Reg} {s : State} {k : Key} : keyOperand? x s = some k ↔ (getV s x).toNat = k.val := by
  unfold keyOperand?
  split
  · simp [Fin.ext_iff]
  · next h =>
    have := k.isLt
    rw [s.config.valid.nkeys] at h
    simp only [reduceCtorEq, false_iff]
    omega

/-- V[x] names no key (R190). -/
theorem keyOperand?_eq_none {x : Reg} {s : State} : keyOperand? x s = none ↔ 15 < (getV s x).toNat := by
  unfold keyOperand?
  split <;> next h => rw [s.config.valid.nkeys] at h; simp; omega

/-- Fetch answers a word exactly where PC is even and both its bytes are memory (R305). -/
theorem fetch_eq_ok {s : State} {w : Word} :
    fetch s = .ok w ↔ s.pc.toNat % 2 = 0 ∧ s.pc.toNat + 1 < s.config.memSize ∧ w = fetchWord s s.pc.toNat := by
  unfold fetch
  rw [s.config.valid.insnBytes]
  split
  · next h => simp [h]
  · next h =>
    split
    · next k => simp only [reduceCtorEq, false_iff]; exact fun e => absurd e.2.1 (Nat.not_lt.2 k)
    · next k => simp only [Except.ok.injEq, eq_comm]
                exact ⟨fun e => ⟨by omega, Nat.lt_of_not_le k, e⟩, fun e => e.2.2⟩

/-- Fetch faults on an odd PC, and then on a PC whose second byte is no memory (R305, R306). -/
theorem fetch_eq_error {s : State} {r : FaultRecord} :
    fetch s = .error r ↔
      (s.pc.toNat % 2 ≠ 0 ∧ r = ⟨.pcMisaligned, s.pc, none, none, none⟩) ∨
      (s.pc.toNat % 2 = 0 ∧ s.config.memSize ≤ s.pc.toNat + 1 ∧
        r = ⟨.memoryBounds, s.pc, none, some (max s.pc.toNat s.config.memSize), none⟩) := by
  unfold fetch
  rw [s.config.valid.insnBytes]
  split
  · next h => simp [h, eq_comm]
  · next h =>
    split
    · next k =>
      simp only [Except.error.injEq, eq_comm]
      exact ⟨fun e => .inr ⟨by omega, k, e⟩, fun e => e.elim (fun e => absurd e.1 h) fun e => e.2.2⟩
    · next k => simp only [reduceCtorEq, false_iff, not_or]; exact ⟨fun e => h e.1, fun e => k e.2.1⟩

/-- A word as the number its two bytes make, the first the more significant (R55). -/
theorem toNat_wordOfBytes (hi lo : Byte) : (wordOfBytes hi lo).toNat = 256 * hi.toNat + lo.toNat := by
  unfold wordOfBytes
  erw [BitVec.toNat_append]
  rw [← Nat.shiftLeft_add_eq_or_of_lt (by simpa using lo.isLt), Nat.shiftLeft_eq, Nat.mul_comm]

/-- Fetching reads what was stored where it fetches, big-endian (R55). -/
theorem fetchWord_storeBytes (s : State) (a : Nat) (hi lo : Byte) : fetchWord (storeBytes a [hi, lo] s) a = hi ++ lo := by
  have h0 := byteAt_storeBytes_at s a 0 [hi, lo] (by simp)
  have h1 := byteAt_storeBytes_at s a 1 [hi, lo] (by simp)
  simp only [Nat.add_zero, List.getD_cons_zero, List.getD_cons_succ] at h0 h1
  simp only [fetchWord, wordOfBytes, h0, h1]

/-- Two states fetch alike where PC, configuration and memory are one. -/
theorem fetch_congr {s t : State} (pc : t.pc = s.pc) (config : t.config = s.config) (mem : t.mem = s.mem) :
    fetch t = fetch s := by
  unfold fetch fetchWord
  rw [pc, config, byteAt_congr config mem, byteAt_congr config mem]

/-- The address of a glyph, a natural: no glyph's address leaves 16 bits (R172). -/
@[simp] theorem toNat_glyphAddress (b : Byte) (s : State) :
    (glyphAddress b s).toNat = s.config.fontBase + s.config.glyphBytes * (b.toNat % 16) := by
  have v := s.config.valid
  have font := v.font
  have glyphs := v.fontGlyphs
  have low := v.low_font
  have room := v.entry_room
  have fits := v.pc_fits
  have nibble : (b &&& 0xF).toNat = b.toNat % 16 := by
    rw [BitVec.toNat_and]; exact Nat.and_two_pow_sub_one_eq_mod b.toNat 4
  have inside : s.config.glyphBytes * (b.toNat % 16) ≤ s.config.glyphBytes * 16 := Nat.mul_le_mul_left _ (by omega)
  rw [glyphs, Nat.mul_comm] at font
  rw [glyphAddress, nibble, BitVec.toNat_ofNat, Nat.mod_eq_of_lt (by omega)]

/-- `withFetchWord` always finds an address the next step can fetch from. -/
theorem fetchableAddress_spec (s : State) :
    fetchableAddress s % 2 = 0 ∧ fetchableAddress s + 1 < s.config.memSize := by
  have even := s.config.valid.entry_even
  have room := s.config.valid.entry_room
  unfold fetchableAddress
  rw [s.config.valid.insnBytes]
  split
  · omega
  · next h => omega

end Sys2Proof.Machine
end

