-- ==== Sys2Proof/Laws/Exec.lean ====
section
/-! SUPPORT. What the meanings with more than one outcome can answer, said once for each; every other meaning answers one
next state, by unfolding. -/

namespace Sys2Proof.Machine

variable {s t : State}

/-- The length of what MOV [I],Vx stores (R175). -/
@[simp] theorem length_registersUpTo (x : Reg) (s : State) : (registersUpTo x s).length = x + 1 := by
  have := x.isLt
  simp only [registersUpTo, List.length_take, Vector.length_toList]
  exact Nat.min_eq_left (by omega)

/-- RET returns through the top entry, or faults on an empty stack (R120). -/
theorem ret_cases (h : exec .ret s = .next t) :
    (∃ k, s.sp = k + 1 ∧ t = { s with pc := stackEntry s k, sp := k }) ∨
    (s.sp = 0 ∧ t = { s with fault := some ⟨.stackUnderflow, s.pc, some (encode .ret), none, none⟩ }) := by
  simp only [exec, execRet] at h
  rcases Nat.eq_zero_or_pos s.sp with hk | hk
  · rw [pop?_of_empty hk, raise_eq_next] at h; exact .inr ⟨hk, h⟩
  · obtain ⟨k, hk⟩ := Nat.exists_eq_add_one_of_ne_zero (Nat.ne_of_gt hk)
    rw [pop?_of_entry hk] at h; cases h; exact .inl ⟨k, hk, rfl⟩

/-- CALL pushes and jumps, or faults on a full stack (R122). -/
theorem call_cases {nnn : Addr12} (h : exec (.call nnn) s = .next t) :
    (s.sp < s.config.stackDepth ∧
      t = { s with pc := zext12 nnn, sp := s.sp + 1, stack := s.stack.set s.sp (s.pc + 2) }) ∨
    (s.config.stackDepth ≤ s.sp ∧
      t = { s with fault := some ⟨.stackOverflow, s.pc, some (encode (.call nnn)), none, none⟩ }) := by
  simp only [exec, execCall, advance_pc] at h
  by_cases room : s.sp < s.config.stackDepth
  · rw [push?_of_room room] at h; cases h; exact .inl ⟨room, rfl⟩
  · rw [push?_of_full (by omega), raise_eq_next] at h; exact .inr ⟨by omega, h⟩

/-- DRW draws, or faults (R101). -/
theorem drw_cases {x y : Reg} {n : Rows} (h : exec (.drw x y n) s = .next t) :
    t = advance (drawn x y n s) ∨ ∃ bad, s.config.memSize ≤ bad ∧
      t = { s with fault := some ⟨.memoryBounds, s.pc, some (encode (.drw x y n)), some bad, none⟩ } := by
  simp only [exec, execDrw] at h
  split at h
  · cases h; exact .inl rfl
  · rcases checked_cases (.drw x y n) (indexAddress s) n s (advance (drawn x y n s)) with c | ⟨bad, hb, c⟩ <;>
      rw [c] at h <;> cases h
    · exact .inl rfl
    · exact .inr ⟨bad, hb, rfl⟩

/-- MOV B stores, or faults (R174). -/
theorem movB_cases {x : Reg} (h : exec (.movB x) s = .next t) :
    (indexAddress s + 3 ≤ s.config.memSize ∧
      t = advance (storeBytes (indexAddress s) (bcdDigits (getV s x)) s)) ∨
    ∃ bad, s.config.memSize ≤ bad ∧
      t = { s with fault := some ⟨.memoryBounds, s.pc, some (encode (.movB x)), some bad, none⟩ } := by
  by_cases fits : indexAddress s + 3 ≤ s.config.memSize
  · rw [show exec (.movB x) s = _ from checked_of_fits (by omega) fits] at h; cases h; exact .inl ⟨fits, rfl⟩
  · rw [show exec (.movB x) s = _ from checked_of_overrun (by omega)] at h; cases h
    exact .inr ⟨_, Nat.le_max_right _ _, rfl⟩

/-- MOV [I],Vx stores, or faults (R175). -/
theorem storeRegs_cases {x : Reg} (h : exec (.storeRegs x) s = .next t) :
    (indexAddress s + (x + 1) ≤ s.config.memSize ∧
      t = advance (storeBytes (indexAddress s) (registersUpTo x s) s)) ∨
    (s.config.memSize < indexAddress s + (x + 1) ∧ ∃ bad, s.config.memSize ≤ bad ∧
      t = { s with fault := some ⟨.memoryBounds, s.pc, some (encode (.storeRegs x)), some bad, none⟩ }) := by
  by_cases fits : indexAddress s + (x + 1) ≤ s.config.memSize
  · rw [show exec (.storeRegs x) s = _ from checked_of_fits (by omega) fits] at h; cases h; exact .inl ⟨fits, rfl⟩
  · rw [show exec (.storeRegs x) s = _ from checked_of_overrun (by omega)] at h; cases h
    exact .inr ⟨by omega, _, Nat.le_max_right _ _, rfl⟩

/-- MOV Vx,[I] loads, or faults (R176). -/
theorem loadRegs_cases {x : Reg} (h : exec (.loadRegs x) s = .next t) :
    (indexAddress s + (x + 1) ≤ s.config.memSize ∧ t = advance { s with v := loadRegisters x (indexAddress s) s }) ∨
    (s.config.memSize < indexAddress s + (x + 1) ∧ ∃ bad, s.config.memSize ≤ bad ∧
      t = { s with fault := some ⟨.memoryBounds, s.pc, some (encode (.loadRegs x)), some bad, none⟩ }) := by
  by_cases fits : indexAddress s + (x + 1) ≤ s.config.memSize
  · rw [show exec (.loadRegs x) s = _ from checked_of_fits (by omega) fits] at h; cases h; exact .inl ⟨fits, rfl⟩
  · rw [show exec (.loadRegs x) s = _ from checked_of_overrun (by omega)] at h; cases h
    exact .inr ⟨by omega, _, Nat.le_max_right _ _, rfl⟩

/-- A key skip asks the host and skips on its answer, or faults (R190, R191). -/
theorem keySkip_cases {i : Instr} {x : Reg} {on : Bool} (h : keySkip i x on s = .next t) :
    (∃ k : Key, (getV s x).toNat = k.val ∧
      t = skipIf ((hostKeyDown k s.host).1 == on) { s with host := (hostKeyDown k s.host).2 }) ∨
    (15 < (getV s x).toNat ∧
      t = { s with fault := some ⟨.keyRange, s.pc, some (encode i), none, some (getV s x)⟩ }) := by
  unfold keySkip at h
  split at h
  · next hk => exact .inr ⟨keyOperand?_eq_none.1 hk, (raise_eq_next ..).1 h⟩
  · next k hk => cases h; exact .inl ⟨k, keyOperand?_eq_some.1 hk, rfl⟩

/-- MOV Vx,K stores the key it is given, or holds (R204). -/
theorem movVxK_cases {x : Reg} (h : exec (.movVxK x) s = .next t) :
    (∃ k : Key, (hostGetKey (requestRedraw s.host)).1 = some k ∧
      t = advance (setV x (BitVec.ofNat 8 k)
        { s with host := (hostGetKey (requestRedraw s.host)).2, wasBlocking := true })) ∨
    ((hostGetKey (requestRedraw s.host)).1 = none ∧
      t = { s with host := (hostGetKey (requestRedraw s.host)).2, wasBlocking := true }) := by
  simp only [exec, execMovVxK] at h
  split at h <;> cases h
  · next k hk => exact .inl ⟨k, hk, rfl⟩
  · next hk => exact .inr ⟨hk, rfl⟩

end Sys2Proof.Machine
end

