-- ==== Sys2Proof/Laws/Framebuffer.lean ====
section
/-! SUPPORT. What the framebuffer operations do to pixels, and the blit as a picture. -/

namespace Sys2Proof.Machine

variable {config : Config}

@[simp] theorem pixel_cleared (px py : Nat) : pixel (clearedFramebuffer config) px py = false := by
  simp only [pixel, clearedFramebuffer, List.getD_eq_getElem?_getD, List.getElem?_replicate]
  split <;> simp [List.getElem?_replicate]
  split <;> rfl

/-- The cleared framebuffer has its shape (R34). -/
@[simp] theorem fbShape_cleared : FbShape config (clearedFramebuffer config) := by
  simp [FbShape, clearedFramebuffer]

/-- A flip keeps the shape. -/
theorem fbShape_flipPixel {fb : Framebuffer} (shape : FbShape config fb) (px py : Nat) :
    FbShape config (flipPixel fb px py) := by
  refine ⟨by simpa [flipPixel] using shape.1, fun row mem => ?_⟩
  obtain ⟨k, hk, rfl⟩ := List.getElem_of_mem mem
  simp only [flipPixel, List.getElem_modify]
  have inside : k < fb.length := by simpa [flipPixel] using hk
  have := shape.2 _ (List.getElem_mem inside)
  split <;> simpa using this

/-- A flip changes its own pixel and no other. -/
theorem pixel_flipPixel {fb : Framebuffer} (shape : FbShape config fb) {px py : Nat} (hx : px < config.dispW)
    (hy : py < config.dispH) (qx qy : Nat) :
    pixel (flipPixel fb px py) qx qy = if qx = px ∧ qy = py then !pixel fb qx qy else pixel fb qx qy := by
  by_cases y : py = qy
  · subst y
    have inside : py < fb.length := by rw [shape.1]; exact hy
    have width : fb[py].length = config.dispW := shape.2 _ (List.getElem_mem inside)
    by_cases x : px = qx
    · subst x
      simp [pixel, flipPixel, inside, width, hx]
    · simp [pixel, flipPixel, inside, x, Ne.symm x]
  · simp [pixel, flipPixel, y, Ne.symm y]

/-- What drawing a set of pixels does: each of them flips, no other does, and the collision is set once one of them was set. -/
structure Draws (covered : Nat → Nat → Prop) (before after : Blit) : Prop where
  flipped : ∀ px py, covered px py → pixel after.1 px py = !pixel before.1 px py
  kept : ∀ px py, ¬ covered px py → pixel after.1 px py = pixel before.1 px py
  collision : after.2 = true ↔ before.2 = true ∨ ∃ px py, covered px py ∧ pixel before.1 px py = true

theorem Draws.nothing (b : Blit) : Draws (fun _ _ => False) b b :=
  ⟨fun _ _ h => h.elim, fun _ _ _ => rfl, by simp⟩

theorem Draws.congr {P Q : Nat → Nat → Prop} {a b : Blit} (h : Draws P a b) (e : ∀ px py, P px py ↔ Q px py) :
    Draws Q a b := by
  have : P = Q := funext fun px => funext fun py => propext (e px py)
  exact this ▸ h

/-- Two drawings that share no pixel are one drawing. -/
theorem Draws.trans {P Q : Nat → Nat → Prop} {a b c : Blit} (h : Draws P a b) (k : Draws Q b c)
    (apart : ∀ px py, P px py → ¬ Q px py) : Draws (fun px py => P px py ∨ Q px py) a c where
  flipped px py hpq := by
    rcases hpq with hp | hq
    · rw [k.kept px py (apart px py hp), h.flipped px py hp]
    · rw [k.flipped px py hq, h.kept px py fun hp => apart px py hp hq]
  kept px py hpq := by
    rw [k.kept px py fun hq => hpq (.inr hq), h.kept px py fun hp => hpq (.inl hp)]
  collision := by
    rw [k.collision, h.collision, or_assoc]
    refine or_congr_right ⟨?_, ?_⟩
    · rintro (⟨px, py, hp, set⟩ | ⟨px, py, hq, set⟩)
      · exact ⟨px, py, .inl hp, set⟩
      · exact ⟨px, py, .inr hq, h.kept px py (fun hp => apart px py hp hq) ▸ set⟩
    · rintro ⟨px, py, hp | hq, set⟩
      · exact .inl ⟨px, py, hp, set⟩
      · exact .inr ⟨px, py, hq, (h.kept px py fun hp => apart px py hp hq).symm ▸ set⟩

theorem draws_blitPixel {b : Blit} (shape : FbShape config b.1) (x0 y0 r c : Nat) :
    Draws (fun px py => (x0 + c) % config.dispW = px ∧ (y0 + r) % config.dispH = py) b (blitPixel config x0 y0 r c b) := by
  have flip := pixel_flipPixel shape
    (Nat.mod_lt (x0 + c) (Nat.lt_of_lt_of_le (by decide) config.valid.dispW_room))
    (Nat.mod_lt (y0 + r) (Nat.lt_of_lt_of_le (by decide) config.valid.dispH_room))
  refine ⟨fun px py h => ?_, fun px py h => ?_, ⟨fun h => ?_, ?_⟩⟩
  · obtain ⟨rfl, rfl⟩ := h
    simp [blitPixel, column, line, flip]
  · rw [eq_comm (b := px), eq_comm (b := py)] at h
    simp [blitPixel, column, line, flip, h]
  · simp only [blitPixel, Bool.or_eq_true] at h
    exact h.imp_right fun set => ⟨_, _, ⟨rfl, rfl⟩, set⟩
  · rintro (h | ⟨px, py, ⟨rfl, rfl⟩, set⟩)
    · simp [blitPixel, h]
    · simp [blitPixel, column, line, set]

/-- A blit keeps the shape, row by row and whole. -/
theorem fbShape_blitRowFrom (x0 y0 r : Nat) (bits : Byte) (c left : Nat) {b : Blit} (shape : FbShape config b.1) :
    FbShape config (blitRowFrom config x0 y0 r bits c left b).1 := by
  induction left generalizing c b with
  | zero => exact shape
  | succ left ih =>
    unfold blitRowFrom
    refine ih (c + 1) ?_
    split
    · exact fbShape_flipPixel shape _ _
    · exact shape

theorem fbShape_blitFrom (x0 y0 r : Nat) (rows : List Byte) {b : Blit} (shape : FbShape config b.1) :
    FbShape config (blitFrom config x0 y0 r rows b).1 := by
  induction rows generalizing r b with
  | nil => exact shape
  | cons bits rest ih => exact ih (r + 1) (fbShape_blitRowFrom x0 y0 r bits 0 8 shape)

theorem fbShape_blit {fb : Framebuffer} (x0 y0 : Nat) (rows : List Byte) (shape : FbShape config fb) :
    FbShape config (blit config fb x0 y0 rows).1 := fbShape_blitFrom x0 y0 0 rows shape

/-- Two numbers less than a period apart that agree mod it are one. -/
theorem mod_inj {a k k' m : Nat} (h : (a + k) % m = (a + k') % m) (hk : k < m) (hk' : k' < m) : k = k' := by
  have := Nat.ModEq.add_left_cancel' a h
  rwa [Nat.ModEq, Nat.mod_eq_of_lt hk, Nat.mod_eq_of_lt hk'] at this

theorem draws_blitRowFrom (x0 y0 r : Nat) (bits : Byte) (c left : Nat) (fits : c + left ≤ 8) {b : Blit}
    (shape : FbShape config b.1) :
    Draws (fun px py => ∃ k, c ≤ k ∧ k < c + left ∧ bits.getLsbD (7 - k) = true ∧
        (x0 + k) % config.dispW = px ∧ (y0 + r) % config.dispH = py)
      b (blitRowFrom config x0 y0 r bits c left b) := by
  induction left generalizing c b with
  | zero => exact (Draws.nothing b).congr fun px py => ⟨False.elim, fun ⟨k, h, h', _⟩ => absurd h' (by omega)⟩
  | succ left ih =>
    have room := config.valid.dispW_room
    by_cases set : bits.getLsbD (7 - c) = true
    · have rest := ih (c + 1) (by omega) (b := blitPixel config x0 y0 r c b) (fbShape_flipPixel shape _ _)
      simp only [blitRowFrom, set, if_true]
      refine ((draws_blitPixel shape x0 y0 r c).trans rest ?_).congr fun px py => ⟨?_, ?_⟩
      · rintro px py ⟨rfl, rfl⟩ ⟨k, hk, hk', -, same, -⟩
        have := mod_inj same (by omega) (by omega)
        omega
      · rintro (⟨hx, hy⟩ | ⟨k, hk, hk', hb, hx, hy⟩)
        · exact ⟨c, le_rfl, by omega, set, hx, hy⟩
        · exact ⟨k, by omega, by omega, hb, hx, hy⟩
      · rintro ⟨k, hk, hk', hb, hx, hy⟩
        by_cases e : k = c
        · subst e; exact .inl ⟨hx, hy⟩
        · exact .inr ⟨k, by omega, by omega, hb, hx, hy⟩
    · have rest := ih (c + 1) (by omega) shape
      simp only [blitRowFrom, set]
      refine rest.congr fun px py => ⟨?_, ?_⟩
      · rintro ⟨k, hk, hk', h⟩
        exact ⟨k, by omega, by omega, h⟩
      · rintro ⟨k, hk, hk', hb, h⟩
        have : k ≠ c := fun e => set (e ▸ hb)
        exact ⟨k, by omega, by omega, hb, h⟩

/-- The pixels of the sprite's rows from row r on. -/
def coversFrom (config : Config) (rows : List Byte) (x0 y0 r px py : Nat) : Prop :=
  ∃ j c, j < rows.length ∧ c < 8 ∧ (rows.getD j 0).getLsbD (7 - c) = true ∧
    (x0 + c) % config.dispW = px ∧ (y0 + (r + j)) % config.dispH = py

theorem draws_blitFrom (x0 y0 r : Nat) (rows : List Byte) (fits : r + rows.length ≤ config.dispH)
    {b : Blit} (shape : FbShape config b.1) : Draws (coversFrom config rows x0 y0 r) b (blitFrom config x0 y0 r rows b) := by
  induction rows generalizing r b with
  | nil => exact (Draws.nothing b).congr fun px py => ⟨False.elim, fun ⟨j, c, h, _⟩ => absurd h (by simp)⟩
  | cons bits rest ih =>
    simp only [List.length_cons] at fits
    refine ((draws_blitRowFrom x0 y0 r bits 0 8 (by omega) shape).trans
      (ih (r + 1) (by omega) (fbShape_blitRowFrom x0 y0 r bits 0 8 shape)) ?_).congr fun px py => ⟨?_, ?_⟩
    · rintro px py ⟨k, -, -, -, -, rfl⟩ ⟨j, c, hj, -, -, -, same⟩
      have := mod_inj same (by omega) (by omega)
      omega
    · rintro (⟨k, -, hk, hb, hx, hy⟩ | ⟨j, c, hj, hc, hb, hx, hy⟩)
      · exact ⟨0, k, by simp, by omega, by simpa using hb, hx, by simpa using hy⟩
      · exact ⟨j + 1, c, by simpa using hj, hc, by simpa using hb, hx, by rw [← hy]; congr 1; omega⟩
    · rintro ⟨j, c, hj, hc, hb, hx, hy⟩
      cases j with
      | zero => exact .inl ⟨c, by omega, by omega, by simpa using hb, hx, by simpa using hy⟩
      | succ j =>
        exact .inr ⟨j, c, by simpa using hj, hc, by simpa using hb, hx, by rw [← hy]; congr 1; omega⟩

/-- Everything a blit does: the pixels the sprite covers flip, no other does, and the collision says whether one of them
was set (R101). A sprite has at most DISP_H rows. -/
theorem draws_blit {fb : Framebuffer} (shape : FbShape config fb) (x0 y0 : Nat) (rows : List Byte)
    (fits : rows.length ≤ config.dispH) :
    Draws (spriteCovers config rows x0 y0) (fb, false) (blit config fb x0 y0 rows) := by
  refine (draws_blitFrom x0 y0 0 rows (by omega) (b := (fb, false)) shape).congr fun px py => ?_
  simp [coversFrom, spriteCovers]

/-- A sprite covers a pixel at all exactly when one of its rows has a set bit. -/
theorem exists_spriteCovers (rows : List Byte) (x0 y0 : Nat) :
    (∃ px py, spriteCovers config rows x0 y0 px py) ↔ rows.any (fun b => decide (b ≠ 0)) = true := by
  simp only [List.any_eq_true, decide_eq_true_eq]
  constructor
  · rintro ⟨px, py, r, c, hr, hc, hb, -⟩
    refine ⟨rows.getD r 0, by rw [List.getD_eq_getElem _ _ hr]; exact List.getElem_mem hr, fun h => ?_⟩
    rw [h] at hb
    simp at hb
  · rintro ⟨b, hb, ne⟩
    obtain ⟨r, hr, rfl⟩ := List.getElem_of_mem hb
    have : ∃ i, i < 8 ∧ rows[r].getLsbD i = true := by
      by_contra none
      push Not at none
      refine ne (BitVec.eq_of_getLsbD_eq fun i hi => ?_)
      simpa using none i hi
    obtain ⟨i, hi, set⟩ := this
    refine ⟨_, _, r, 7 - i, hr, by omega, ?_, rfl, rfl⟩
    rw [List.getD_eq_getElem _ _ hr, show 7 - (7 - i) = i by omega]
    exact set

end Sys2Proof.Machine
end

