-- ==== Sys2Proof/Laws/Step.lean ====
section
/-! SUPPORT. What an instruction step can do, said once. -/

namespace Sys2Proof.Machine

/-- Everything an instruction step that answers a next state has done: a fetch fault, an invalid word, or exec of the
decoded instruction (R305). -/
theorem instructionStep_cases {s t : State} (h : instructionStep s = .next t) :
    s.fault = none ∧
      ((∃ r, fetch s = .error r ∧ t = { s with fault := some r }) ∨
       (∃ w e, fetch s = .ok w ∧ decode w = .error e ∧
          t = { s with fault := some ⟨.invalidOpcode, s.pc, some w, none, none⟩ }) ∨
       (∃ w i, fetch s = .ok w ∧ decode w = .ok i ∧ exec i s = .next t)) := by
  unfold instructionStep at h
  cases hf : s.fault with
  | some r => simp [hf] at h
  | none =>
    simp only [hf] at h
    refine ⟨rfl, ?_⟩
    cases hw : fetch s with
    | error r => rw [hw] at h; exact .inl ⟨r, rfl, (raise_eq_next ..).1 h⟩
    | ok w =>
      rw [hw] at h
      simp only at h
      cases hd : decode w with
      | error e => rw [hd] at h; exact .inr (.inl ⟨w, e, rfl, hd, (raise_eq_next ..).1 h⟩)
      | ok i => rw [hd] at h; exact .inr (.inr ⟨w, i, rfl, hd, h⟩)

/-- With the latch set no instruction step is enabled (R39). -/
theorem instructionStep_of_latched {s : State} {r : FaultRecord} (h : s.fault = some r) :
    instructionStep s = .fault (.latched r) := by
  unfold instructionStep; rw [h]

/-- A fetch fault (R305). -/
theorem instructionStep_of_fetch_error {s : State} {r : FaultRecord} (hf : s.fault = none) (h : fetch s = .error r) :
    instructionStep s = .next { s with fault := some r } := by
  unfold instructionStep; rw [hf, h]; rfl

/-- A word that is no instruction (R302). -/
theorem instructionStep_of_invalid {s : State} {w : Word} {e : DecodeError} (hf : s.fault = none) (hw : fetch s = .ok w)
    (hd : decode w = .error e) :
    instructionStep s = .next { s with fault := some ⟨.invalidOpcode, s.pc, some w, none, none⟩ } := by
  unfold instructionStep; simp only [hf, hw, hd]; rfl

/-- A word that is one: the step is its exec (R305). -/
theorem instructionStep_of_decoded {s : State} {w : Word} {i : Instr} (hf : s.fault = none) (hw : fetch s = .ok w)
    (hd : decode w = .ok i) : instructionStep s = exec i s := by
  unfold instructionStep; simp only [hf, hw, hd]

/-- Where an instruction has gone to is checked by the next fetch (R26, R52). -/
theorem fetchChecksTarget {t : State} (h : t.fault = none) : FetchChecksTarget t :=
  ⟨fun odd => instructionStep_of_fetch_error h (fetch_eq_error.2 (.inl ⟨by omega, rfl⟩)),
   fun even past => instructionStep_of_fetch_error h (fetch_eq_error.2 (.inr ⟨even, past, rfl⟩))⟩

end Sys2Proof.Machine
end

