-- ==== Sys2Proof/Laws/HostCalls.lean ====
section
/-! SUPPORT. What the host's calls can do, said once: a predicate that instruction steps keep, calls keep. -/

namespace Sys2Proof.Machine

/-- A predicate that instruction steps keep is kept by any number of them (R325). -/
theorem runSteps_keeps {P : State → Prop} (step : ∀ s t, P s → instructionStep s = .next t → P t) (n : Nat) :
    ∀ s, P s → P (runSteps n s).1 := by
  induction n with
  | zero => exact fun s h => h
  | succ n ih =>
    intro s h
    unfold runSteps
    split
    · exact h
    · exact h
    · next t e =>
      split
      · exact step s t h e
      · split
        · exact step s t h e
        · exact ih t (step s t h e)

/-- A predicate that instruction steps, ticks and the clearing of was_blocking keep, every call of the host keeps (R326). -/
theorem hostCall_keeps {P : State → Prop} (step : ∀ s t, P s → instructionStep s = .next t → P t)
    (tick : ∀ n s, P s → P (tick n s)) (clear : ∀ s, P s → P { s with wasBlocking := false }) (c : HostCall) (s : State)
    (h : P s) : P (hostCall c s).1 := by
  cases c with
  | step n => exact runSteps_keeps step n _ (clear s h)
  | tick n => exact tick n s h

/-- So does every sequence of calls. -/
theorem hostCalls_keeps {P : State → Prop} (call : ∀ c s, P s → P (hostCall c s).1) (cs : List HostCall) :
    ∀ s, P s → P (hostCalls cs s) := by
  induction cs with
  | nil => exact fun s h => h
  | cons c rest ih => exact fun s h => ih _ (call c s h)

/-- A step call on a faulted core runs nothing and answers the fault (R325). -/
theorem stepCall_of_latched {s : State} {r : FaultRecord} (h : s.fault = some r) (n : Nat) :
    stepCall n s = ({ s with wasBlocking := false }, .err r) := by
  cases n with
  | zero => simp [stepCall, runSteps, h]
  | succ n => simp [stepCall, runSteps, instructionStep_of_latched (s := { s with wasBlocking := false }) h]

/-- A load answers the state with the image in place, exactly where it fits (R402). -/
theorem loadProgram?_eq_some {image : List Byte} {s t : State} :
    loadProgram? image s = some t ↔ image.length ≤ s.config.maxProgram ∧
      t = redirect (BitVec.ofNat 16 s.config.loadBase) (storeBytes s.config.loadBase image s) := by
  unfold loadProgram?
  split
  · next h => simp only [reduceCtorEq, false_iff]; omega
  · next h => simp only [Option.some.injEq, eq_comm]; exact ⟨fun e => ⟨by omega, e⟩, fun e => e.2⟩

/-- A load is rejected exactly where the image does not fit (R402). -/
theorem loadProgram?_eq_none {image : List Byte} {s : State} :
    loadProgram? image s = none ↔ s.config.maxProgram < image.length := by
  unfold loadProgram?
  split <;> simp_all

/-- The call that loads an image that fits (R402). -/
theorem loadCall_of_fits {image : List Byte} {s : State} (h : image.length ≤ s.config.maxProgram) :
    loadCall image s =
      (redirect (BitVec.ofNat 16 s.config.loadBase) (storeBytes s.config.loadBase image s), .ok) := by
  unfold loadCall; rw [loadProgram?_eq_some.2 ⟨h, rfl⟩]

/-- The call that loads an image that does not (R402). -/
theorem loadCall_of_too_long {image : List Byte} {s : State} (h : s.config.maxProgram < image.length) :
    loadCall image s = (s, .loadRejected) := by
  unfold loadCall; rw [loadProgram?_eq_none.2 h]

/-- A rejected image leaves the next one to be tried (the model's choice, assumption log 12). -/
theorem firstAccepted?_of_rejected {c : Config} {image : List Byte} {images : List (List Byte)} (h : launch? c image = none) :
    firstAccepted? c (image :: images) = firstAccepted? c images := by
  simp [firstAccepted?, h]

/-- An accepted image is the one load. -/
theorem firstAccepted?_of_accepted {c : Config} {image : List Byte} {images : List (List Byte)} {s : State}
    (h : launch? c image = some s) : firstAccepted? c (image :: images) = some s := by
  simp [firstAccepted?, h]

/-- A step at a state whose word is a JMP to its own address changes nothing (R332). -/
theorem instructionStep_of_self_jump {s : State} (h : EndedNormally s) : instructionStep s = .next s := by
  obtain ⟨hf, hw, nnn, hd, hp⟩ := h
  rw [instructionStep_of_decoded hf hw hd]
  simp only [exec, execJmp, redirect, hp]

end Sys2Proof.Machine
end

