-- ==== Sys2Proof/Laws/PerInstr.lean ====
section
/-! SUPPORT. Per instruction: its word is in its own row of the opcode table, at the row's place in R85, and that row makes
the instruction of it. -/

namespace Sys2Proof.Laws.OwnRow

/-- The number of an instruction's row in R85, from 0. -/
def rowNumber (i : Instr) : Nat :=
  match i with
  | .cls => 0
  | .ret => 1
  | .jmp _ => 2
  | .call _ => 3
  | .seImm _ _ => 4
  | .sneImm _ _ => 5
  | .seReg _ _ => 6
  | .movImm _ _ => 7
  | .addImm _ _ => 8
  | .movReg _ _ => 9
  | .orReg _ _ => 10
  | .andReg _ _ => 11
  | .xorReg _ _ => 12
  | .addReg _ _ => 13
  | .sub _ _ => 14
  | .shr _ _ => 15
  | .subn _ _ => 16
  | .shl _ _ => 17
  | .sneReg _ _ => 18
  | .movI _ => 19
  | .jmpV0 _ => 20
  | .rnd _ _ => 21
  | .drw _ _ _ => 22
  | .skp _ => 23
  | .sknp _ => 24
  | .movVxDT _ => 25
  | .movVxK _ => 26
  | .movDTVx _ => 27
  | .movSTVx _ => 28
  | .addI _ => 29
  | .movF _ => 30
  | .movB _ => 31
  | .storeRegs _ => 32
  | .loadRegs _ => 33

/-- The word of an instruction is in the row with its number, and that row makes the instruction of it. -/
def Statement (i : Instr) : Prop := ∃ r, opcodeTable[rowNumber i]? = some r ∧ r.Reads (encode i) i

theorem cls : Statement .cls := ⟨_, rfl, rfl, rfl⟩
theorem ret : Statement .ret := ⟨_, rfl, rfl, rfl⟩
theorem jmp (nnn : Addr12) : Statement (.jmp nnn) := ⟨_, rfl, reads_NNN .jmp (by decide) (by decide) nnn⟩
theorem call (nnn : Addr12) : Statement (.call nnn) := ⟨_, rfl, reads_NNN .call (by decide) (by decide) nnn⟩
theorem seImm (x : Reg) (kk : Byte) : Statement (.seImm x kk) :=
  ⟨_, rfl, reads_XKK .seImm (by decide) (by decide) (by decide) x kk⟩
theorem sneImm (x : Reg) (kk : Byte) : Statement (.sneImm x kk) :=
  ⟨_, rfl, reads_XKK .sneImm (by decide) (by decide) (by decide) x kk⟩
theorem seReg (x y : Reg) : Statement (.seReg x y) :=
  ⟨_, rfl, reads_XY .seReg (by decide) (by decide) (by decide) x y⟩
theorem movImm (x : Reg) (kk : Byte) : Statement (.movImm x kk) :=
  ⟨_, rfl, reads_XKK .movImm (by decide) (by decide) (by decide) x kk⟩
theorem addImm (x : Reg) (kk : Byte) : Statement (.addImm x kk) :=
  ⟨_, rfl, reads_XKK .addImm (by decide) (by decide) (by decide) x kk⟩
theorem movReg (x y : Reg) : Statement (.movReg x y) :=
  ⟨_, rfl, reads_XY .movReg (by decide) (by decide) (by decide) x y⟩
theorem orReg (x y : Reg) : Statement (.orReg x y) :=
  ⟨_, rfl, reads_XY .orReg (by decide) (by decide) (by decide) x y⟩
theorem andReg (x y : Reg) : Statement (.andReg x y) :=
  ⟨_, rfl, reads_XY .andReg (by decide) (by decide) (by decide) x y⟩
theorem xorReg (x y : Reg) : Statement (.xorReg x y) :=
  ⟨_, rfl, reads_XY .xorReg (by decide) (by decide) (by decide) x y⟩
theorem addReg (x y : Reg) : Statement (.addReg x y) :=
  ⟨_, rfl, reads_XY .addReg (by decide) (by decide) (by decide) x y⟩
theorem sub (x y : Reg) : Statement (.sub x y) := ⟨_, rfl, reads_XY .sub (by decide) (by decide) (by decide) x y⟩
theorem shr (x y : Reg) : Statement (.shr x y) := ⟨_, rfl, reads_XY .shr (by decide) (by decide) (by decide) x y⟩
theorem subn (x y : Reg) : Statement (.subn x y) := ⟨_, rfl, reads_XY .subn (by decide) (by decide) (by decide) x y⟩
theorem shl (x y : Reg) : Statement (.shl x y) := ⟨_, rfl, reads_XY .shl (by decide) (by decide) (by decide) x y⟩
theorem sneReg (x y : Reg) : Statement (.sneReg x y) :=
  ⟨_, rfl, reads_XY .sneReg (by decide) (by decide) (by decide) x y⟩
theorem movI (nnn : Addr12) : Statement (.movI nnn) := ⟨_, rfl, reads_NNN .movI (by decide) (by decide) nnn⟩
theorem jmpV0 (nnn : Addr12) : Statement (.jmpV0 nnn) := ⟨_, rfl, reads_NNN .jmpV0 (by decide) (by decide) nnn⟩
theorem rnd (x : Reg) (kk : Byte) : Statement (.rnd x kk) :=
  ⟨_, rfl, reads_XKK .rnd (by decide) (by decide) (by decide) x kk⟩
theorem drw (x y : Reg) (n : Rows) : Statement (.drw x y n) :=
  ⟨_, rfl, reads_XYN .drw (by decide) (by decide) (by decide) (by decide) x y n⟩
theorem skp (x : Reg) : Statement (.skp x) := ⟨_, rfl, reads_XFF .skp (by decide) (by decide) x⟩
theorem sknp (x : Reg) : Statement (.sknp x) := ⟨_, rfl, reads_XFF .sknp (by decide) (by decide) x⟩
theorem movVxDT (x : Reg) : Statement (.movVxDT x) := ⟨_, rfl, reads_XFF .movVxDT (by decide) (by decide) x⟩
theorem movVxK (x : Reg) : Statement (.movVxK x) := ⟨_, rfl, reads_XFF .movVxK (by decide) (by decide) x⟩
theorem movDTVx (x : Reg) : Statement (.movDTVx x) := ⟨_, rfl, reads_XFF .movDTVx (by decide) (by decide) x⟩
theorem movSTVx (x : Reg) : Statement (.movSTVx x) := ⟨_, rfl, reads_XFF .movSTVx (by decide) (by decide) x⟩
theorem addI (x : Reg) : Statement (.addI x) := ⟨_, rfl, reads_XFF .addI (by decide) (by decide) x⟩
theorem movF (x : Reg) : Statement (.movF x) := ⟨_, rfl, reads_XFF .movF (by decide) (by decide) x⟩
theorem movB (x : Reg) : Statement (.movB x) := ⟨_, rfl, reads_XFF .movB (by decide) (by decide) x⟩
theorem storeRegs (x : Reg) : Statement (.storeRegs x) := ⟨_, rfl, reads_XFF .storeRegs (by decide) (by decide) x⟩
theorem loadRegs (x : Reg) : Statement (.loadRegs x) := ⟨_, rfl, reads_XFF .loadRegs (by decide) (by decide) x⟩

end Sys2Proof.Laws.OwnRow
end

