-- ==== Sys2Proof/Tests/Slice0.lean ====
section
/-! SUPPORT. Tests: the decoding of words written out from R71 to R85, the refused terms, one step of each instruction with
results from spec/95_test_vectors.md (named in the docstrings), and for each statement with hypotheses a witness of them. -/

namespace Sys2Proof.Tests

open Sys2Proof Sys2Proof.Machine

/-! ### Decoding (R71 to R85; x = A, y = 5, n = 7, kk = 3C, nnn = 2F1) -/

theorem test_decode_cls : decode 0b0000000011100000 = .ok .cls := by decide
theorem test_decode_ret : decode 0b0000000011101110 = .ok .ret := by decide
theorem test_decode_jmp : decode 0b0001001011110001 = .ok (.jmp 0x2F1) := by decide
theorem test_decode_call : decode 0b0010001011110001 = .ok (.call 0x2F1) := by decide
theorem test_decode_seImm : decode 0b0011101000111100 = .ok (.seImm 10 0x3C) := by decide
theorem test_decode_sneImm : decode 0b0100101000111100 = .ok (.sneImm 10 0x3C) := by decide
theorem test_decode_seReg : decode 0b0101101001010000 = .ok (.seReg 10 5) := by decide
theorem test_decode_movImm : decode 0b0110101000111100 = .ok (.movImm 10 0x3C) := by decide
theorem test_decode_addImm : decode 0b0111101000111100 = .ok (.addImm 10 0x3C) := by decide
theorem test_decode_movReg : decode 0b1000101001010000 = .ok (.movReg 10 5) := by decide
theorem test_decode_orReg : decode 0b1000101001010001 = .ok (.orReg 10 5) := by decide
theorem test_decode_andReg : decode 0b1000101001010010 = .ok (.andReg 10 5) := by decide
theorem test_decode_xorReg : decode 0b1000101001010011 = .ok (.xorReg 10 5) := by decide
theorem test_decode_addReg : decode 0b1000101001010100 = .ok (.addReg 10 5) := by decide
theorem test_decode_sub : decode 0b1000101001010101 = .ok (.sub 10 5) := by decide
theorem test_decode_shr : decode 0b1000101001010110 = .ok (.shr 10 5) := by decide
theorem test_decode_subn : decode 0b1000101001010111 = .ok (.subn 10 5) := by decide
theorem test_decode_shl : decode 0b1000101001011110 = .ok (.shl 10 5) := by decide
theorem test_decode_sneReg : decode 0b1001101001010000 = .ok (.sneReg 10 5) := by decide
theorem test_decode_movI : decode 0b1010001011110001 = .ok (.movI 0x2F1) := by decide
theorem test_decode_jmpV0 : decode 0b1011001011110001 = .ok (.jmpV0 0x2F1) := by decide
theorem test_decode_rnd : decode 0b1100101000111100 = .ok (.rnd 10 0x3C) := by decide
theorem test_decode_drw : decode 0b1101101001010111 = .ok (.drw 10 5 7) := by decide
theorem test_decode_skp : decode 0b1110101010011110 = .ok (.skp 10) := by decide
theorem test_decode_sknp : decode 0b1110101010100001 = .ok (.sknp 10) := by decide
theorem test_decode_movVxDT : decode 0b1111101000000111 = .ok (.movVxDT 10) := by decide
theorem test_decode_movVxK : decode 0b1111101000001010 = .ok (.movVxK 10) := by decide
theorem test_decode_movDTVx : decode 0b1111101000010101 = .ok (.movDTVx 10) := by decide
theorem test_decode_movSTVx : decode 0b1111101000011000 = .ok (.movSTVx 10) := by decide
theorem test_decode_addI : decode 0b1111101000011110 = .ok (.addI 10) := by decide
theorem test_decode_movF : decode 0b1111101000101001 = .ok (.movF 10) := by decide
theorem test_decode_movB : decode 0b1111101000110011 = .ok (.movB 10) := by decide
theorem test_decode_storeRegs : decode 0b1111101001010101 = .ok (.storeRegs 10) := by decide
theorem test_decode_loadRegs : decode 0b1111101001100101 = .ok (.loadRegs 10) := by decide

/-- What an invalid word answers. -/
def invalid (w : Word) : Except DecodeError Instr := .error (.invalidOpcode w)

/-- DE1 to DE3, DE6, DE7: words that are no instruction. -/
theorem test_decode_invalid_0_to_8 : [0x0000, 0x0123, 0x00E1, 0x5121, 0x8128, 0x812F].map decode =
    [0x0000, 0x0123, 0x00E1, 0x5121, 0x8128, 0x812F].map invalid := by decide
/-- DE8 to DE10. -/
theorem test_decode_invalid_9_to_F : [0x9121, 0xE19F, 0xE1A0, 0xF100, 0xF1FF, 0xFFFF].map decode =
    [0x9121, 0xE19F, 0xE1A0, 0xF100, 0xF1FF, 0xFFFF].map invalid := by decide

theorem test_decode_too_short : decodeBytes [0x00] = .error .tooShort := by decide

/-! ### Written instructions: well-formedness and assembly (AS1 to AS8) -/

theorem test_refuses_wide_byte : AsmInstr.wellFormed ⟨.MOV, [.reg 1, .num 0x100]⟩ = false := by decide
theorem test_refuses_register_16 : AsmInstr.wellFormed ⟨.MOV, [.reg 16, .num 1]⟩ = false := by decide
theorem test_refuses_second_register_16 : AsmInstr.wellFormed ⟨.ADD, [.reg 1, .reg 16]⟩ = false := by decide
theorem test_refuses_wide_address : AsmInstr.wellFormed ⟨.JMP, [.num 0x1000]⟩ = false := by decide
theorem test_refuses_wide_rows : AsmInstr.wellFormed ⟨.DRW, [.reg 0, .reg 1, .num 16]⟩ = false := by decide
theorem test_refuses_wrong_count : AsmInstr.wellFormed ⟨.CLS, [.reg 1]⟩ = false := by decide
theorem test_refuses_wrong_operand : AsmInstr.wellFormed ⟨.SKP, [.num 1]⟩ = false := by decide
theorem test_refuses_jump_offset_register : AsmInstr.wellFormed ⟨.JMP, [.reg 1, .num 0x300]⟩ = false := by decide
theorem test_refuses_unresolved_name : AsmInstr.wellFormed ⟨.JMP, [.name "loop"]⟩ = false := by decide
theorem test_accepts : AsmInstr.wellFormed ⟨.MOV, [.reg 15, .num 0xFF]⟩ = true ∧ (Instr.drw 15 15 15).wellFormed = true := by
  decide

theorem test_assemble_AS1_to_AS4 :
    assemble Config.standard [.code none (some ⟨.MOV, [.reg 1, .num 12]⟩), .code none (some ⟨.JMP, [.reg 0, .num 0x300]⟩),
      .code none (some ⟨.MOV, [.reg 15, .indI]⟩), .code none (some ⟨.DRW, [.reg 10, .reg 11, .num 5]⟩)] =
    some [0x610C, 0xB300, 0xFF65, 0xDAB5] := by decide
theorem test_assemble_AS5_label : assemble Config.standard [.code (some "loop") (some ⟨.JMP, [.name "loop"]⟩)] = some [0x1200] := by decide
theorem test_assemble_AS6_constant :
    assemble Config.standard [.constant "N" 0x10, .code none (some ⟨.ADD, [.reg 2, .name "N"]⟩)] = some [0x7210] := by decide
theorem test_assemble_AS7_diagnostic : assemble Config.standard [.code none (some ⟨.MOV, [.reg 1, .num 0x100]⟩)] = none := by decide
theorem test_disassemble : disassemble [0x610C, 0x0123, 0xFF65] = [some "MOV V1, 12", none, some "MOV V15, [I]"] := by decide

/-! ### One step of each instruction -/

/-- A core with other parameters (R7): 16 columns and 16 rows, glyphs of four bytes, the font at 2 with every byte 0xAA, four
bytes for a program, one stack entry. -/
def tiny : Config :=
  { Config.standard with
    memSize := 86, loadBase := 82, maxProgram := 4, stackDepth := 1, dispW := 16, dispH := 16, fbBytes := 32
    glyphBytes := 4, fontBase := 2, font := List.replicate 64 0xAA, valid := by constructor <;> decide }

/-- The launch state without an image (R405). -/
def launched : State := { State.reset with pc := 0x200 }

/-- A state with a register set. -/
def withV (r : Reg) (b : Byte) (s : State) : State := setV r b s

/-- A state whose memory holds bytes from an address on. -/
def withBytes (a : Nat) (bytes : List Byte) (s : State) : State := storeBytes a bytes s

/-- What a function sees in the state after one step with a word placed where it fetches; `none` where there is none. -/
def after (s : State) (w : Nat) {α : Type} (see : State → α) : Option α :=
  match step (s.withFetchWord 16 w) with
  | .next t => some (see t)
  | _ => none

/-- The next state of a result, `none` where there is none. -/
def nextOf (r : Result) : Option State :=
  match r with
  | .next t => some t
  | _ => none

/-- The fault of a state as vectors give it: the kind and the fault address. -/
def faultOf (s : State) : Option (FaultKind × Option Nat) := s.fault.map fun r => (r.kind, r.addr)

/-- The state after DI2: glyph 0 drawn at the origin. -/
def glyphDrawn : State := { drawn 0 1 5 launched with pc := 0x200 }

/-- DI1. -/
theorem test_cls_DI1 : after (withV 15 7 glyphDrawn) 0x00E0 (fun t => (decide (t.fb = clearedFramebuffer t.config), getV t vf, t.pc)) =
    some ((true, 7, 0x202)) := by decide
/-- DI2. -/
theorem test_drw_DI2 : after launched 0xD015 (fun t => ((fbImage t.config t.fb).take 33, getV t vf)) =
    some (([0xF0, 0, 0, 0, 0, 0, 0, 0, 0x90, 0, 0, 0, 0, 0, 0, 0, 0x90, 0, 0, 0, 0, 0, 0, 0, 0x90, 0, 0, 0, 0, 0, 0, 0, 0xF0], 0)) := by decide
/-- DI4, its corner pixels. -/
theorem test_drw_DI4_wraps : after (withV 0 0x3E (withV 1 0x1E launched)) 0xD015 (fun t => (pixel t.fb 62 30, pixel t.fb 0 30, pixel t.fb 2 30, pixel t.fb 62 0, pixel t.fb 1 1, pixel t.fb 0 31)) =
    some ((true, true, false, true, true, false)) := by decide
/-- CF10. -/
theorem test_ret_CF10 : after ({ launched with pc := 0x30A, sp := 1, stack := launched.stack.set 0 0x206 }) 0x00EE (fun t => (t.pc, t.sp)) =
    some ((0x206, 0)) := by decide
/-- CF11. -/
theorem test_ret_CF11 : after launched 0x00EE (fun t => (faultOf t, t.pc, t.sp)) =
    some ((some (.stackUnderflow, none), 0x200, 0)) := by decide
/-- CF2: no 2 is added. -/
theorem test_jmp_CF2 : after ({ launched with pc := 0x202 }) 0x1202 (fun t => t.pc) =
    some (0x202) := by decide
/-- CF9. -/
theorem test_call_CF9 : after ({ launched with pc := 0x204 }) 0x2300 (fun t => (stackEntry t 0, t.sp, t.pc)) =
    some ((0x206, 1, 0x300)) := by decide
/-- CF13. -/
theorem test_call_CF13 : after ({ launched with sp := 12 }) 0x2200 (fun t => (faultOf t, t.sp, t.pc)) =
    some ((some (.stackOverflow, none), 12, 0x200)) := by decide
/-- CF3. -/
theorem test_seImm_CF3 : after (withV 1 0x0C launched) 0x310C (fun t => t.pc) =
    some (0x204) := by decide
/-- CF5. -/
theorem test_sneImm_CF5 : after (withV 1 0x0C launched) 0x410C (fun t => t.pc) =
    some (0x202) := by decide
/-- CF7. -/
theorem test_seReg_CF7 : after (withV 1 1 (withV 2 2 launched)) 0x5120 (fun t => t.pc) =
    some (0x202) := by decide
/-- CF7. -/
theorem test_sneReg_CF7 : after (withV 1 1 (withV 2 2 launched)) 0x9120 (fun t => t.pc) =
    some (0x204) := by decide
/-- AL1. -/
theorem test_movImm_AL1 : after launched 0x6AFF (fun t => getV t 10) =
    some (0xFF) := by decide
/-- AL2: no flag. -/
theorem test_addImm_AL2 : after (withV 1 0xFF (withV 15 0x55 launched)) 0x7102 (fun t => (getV t 1, getV t vf)) =
    some ((0x01, 0x55)) := by decide
/-- AL3. -/
theorem test_movReg_AL3 : after (withV 2 7 (withV 15 1 launched)) 0x8120 (fun t => (getV t 1, getV t vf)) =
    some ((0x07, 0x01)) := by decide
/-- AL4. -/
theorem test_orReg_AL4 : after (withV 1 0xF0 (withV 2 0x0F (withV 15 1 launched))) 0x8121 (fun t => (getV t 1, getV t vf)) =
    some ((0xFF, 0x01)) := by decide
/-- AL5. -/
theorem test_andReg_AL5 : after (withV 1 0xF0 (withV 2 0x3C launched)) 0x8122 (fun t => getV t 1) =
    some (0x30) := by decide
/-- AL6. -/
theorem test_xorReg_AL6 : after (withV 1 0xFF (withV 2 0x0F launched)) 0x8123 (fun t => getV t 1) =
    some (0xF0) := by decide
/-- AL7. -/
theorem test_addReg_AL7 : after (withV 1 0xFF (withV 2 0x01 launched)) 0x8124 (fun t => (getV t 1, getV t vf)) =
    some ((0x00, 1)) := by decide
/-- AL10: the flag is written last. -/
theorem test_addReg_AL10 : after (withV 15 0x10 (withV 1 0x20 launched)) 0x8F14 (fun t => (getV t vf, getV t 1)) =
    some ((0, 0x20)) := by decide
/-- AL13. -/
theorem test_sub_AL13 : after (withV 1 3 (withV 2 5 launched)) 0x8125 (fun t => (getV t 1, getV t vf)) =
    some ((0xFE, 0)) := by decide
/-- AL14. -/
theorem test_sub_AL14 : after (withV 1 5 (withV 2 5 launched)) 0x8125 (fun t => (getV t 1, getV t vf)) =
    some ((0x00, 1)) := by decide
/-- AL18. -/
theorem test_subn_AL18 : after (withV 1 3 (withV 2 5 launched)) 0x8127 (fun t => (getV t 1, getV t vf)) =
    some ((0x02, 1)) := by decide
/-- AL19. -/
theorem test_subn_AL19 : after (withV 1 5 (withV 2 3 launched)) 0x8127 (fun t => (getV t 1, getV t vf)) =
    some ((0xFE, 0)) := by decide
/-- AL21. -/
theorem test_shr_AL21 : after (withV 1 0x81 launched) 0x8126 (fun t => (getV t 1, getV t vf)) =
    some ((0x40, 1)) := by decide
/-- AL23: Vy is ignored. -/
theorem test_shr_AL23 : after (withV 1 4 (withV 2 0xFF launched)) 0x8126 (fun t => (getV t 1, getV t vf)) =
    some ((0x02, 0)) := by decide
/-- AL25. -/
theorem test_shl_AL25 : after (withV 1 0x81 launched) 0x812E (fun t => (getV t 1, getV t vf)) =
    some ((0x02, 1)) := by decide
/-- AL28. -/
theorem test_shl_AL28 : after (withV 15 0x40 launched) 0x8F0E (fun t => getV t vf) =
    some (0) := by decide
/-- IM1. -/
theorem test_movI_IM1 : after launched 0xA123 (fun t => t.i) =
    some (0x0123) := by decide
/-- CF16: no mask. -/
theorem test_jmpV0_CF16 : after (withV 0 0xFF launched) 0xBFFF (fun t => (t.pc, t.i)) =
    some ((0x10FE, 0)) := by decide
/-- AL29. -/
theorem test_rnd_AL29 : after ({ launched with host := { HostPort.initial with rand := [0xAB] } }) 0xC10F (fun t => (getV t 1, t.host.events)) =
    some ((0x0B, [.rand 0xAB])) := by decide
/-- KT1. -/
theorem test_skp_KT1 : after (withV 1 5 { launched with host := { HostPort.initial with keyDown := [true] } }) 0xE19E (fun t => (t.pc, t.host.events)) =
    some ((0x204, [.keyDown 5 true])) := by decide
/-- KT3. -/
theorem test_skp_KT3 : after (withV 1 0x10 launched) 0xE19E (fun t => t.fault.map fun r => (r.kind, r.key)) =
    some (some (.keyRange, some 0x10)) := by decide
/-- KT2. -/
theorem test_sknp_KT2 : after (withV 1 5 { launched with host := { HostPort.initial with keyDown := [true] } }) 0xE1A1 (fun t => t.pc) =
    some (0x202) := by decide
/-- KT5. -/
theorem test_movVxDT_KT5 : after ({ launched with dt := 0x3C }) 0xF107 (fun t => getV t 1) =
    some (0x3C) := by decide
/-- KT8. -/
theorem test_movVxK_KT8 : after ({ launched with host := { HostPort.initial with getKey := [some 7] } }) 0xF10A (fun t => (getV t 1, t.pc, t.wasBlocking, t.host.events)) =
    some ((7, 0x202, true, [.getKey (some 7), .redraw])) := by decide
/-- KT9. -/
theorem test_movVxK_KT9 : after (withV 1 9 { launched with host := { HostPort.initial with getKey := [none] } }) 0xF10A (fun t => (getV t 1, t.pc, t.wasBlocking, t.host.events)) =
    some ((9, 0x200, true, [.getKey none, .redraw])) := by decide
/-- KT6. -/
theorem test_movDTVx_KT6 : after (withV 1 0x3C launched) 0xF115 (fun t => (t.dt, t.st)) =
    some ((0x3C, 0)) := by decide
/-- KT7. -/
theorem test_movSTVx_KT7 : after (withV 2 2 launched) 0xF218 (fun t => (t.st, soundOn t)) =
    some ((2, true)) := by decide
/-- IM3. -/
theorem test_addI_IM3 : after (withV 1 1 (withV 15 5 { launched with i := 0x0FFF })) 0xF11E (fun t => (t.i, getV t vf)) =
    some ((0x1000, 5)) := by decide
/-- IM4. -/
theorem test_addI_IM4 : after (withV 1 2 { launched with i := 0xFFFF }) 0xF11E (fun t => t.i) =
    some (0x0001) := by decide
/-- IM9. -/
theorem test_movF_IM9 : after (withV 1 0x1A launched) 0xF129 (fun t => t.i) =
    some (0x032) := by decide
/-- IM5. -/
theorem test_movB_IM5 : after (withV 1 0xFE { launched with i := 0x300 }) 0xF133 (fun t => (bytesAt t 0x300 3, t.i)) =
    some (([2, 5, 4], 0x300)) := by decide
/-- IM8. -/
theorem test_movB_IM8 : after ({ launched with i := 0xE8E }) 0xF133 (fun t => (faultOf t, bytesAt t 0xE8E 2)) =
    some ((some (.memoryBounds, some 0xE90), [0, 0])) := by decide
/-- IM10. -/
theorem test_storeRegs_IM10 : after (withV 0 1 (withV 1 2 (withV 2 3 (withV 3 4 { launched with i := 0x300 })))) 0xF255 (fun t => (bytesAt t 0x300 4, t.i)) =
    some (([1, 2, 3, 0], 0x300)) := by decide
/-- IM12. -/
theorem test_storeRegs_IM12 : after ({ launched with i := 0xE81 }) 0xFF55 (fun t => faultOf t) =
    some (some (.memoryBounds, some 0xE90)) := by decide
/-- IM14. -/
theorem test_loadRegs_IM14 : after (withV 3 9 (withBytes 0x300 [2, 5, 4, 1] { launched with i := 0x300 })) 0xF265 (fun t => (getV t 0, getV t 1, getV t 2, getV t 3, t.i)) =
    some ((2, 5, 4, 9, 0x300)) := by decide
/-- IM16: the font's first byte. -/
theorem test_loadRegs_IM16 : after launched 0xF065 (fun t => getV t 0) =
    some (0xF0) := by decide

/-! ### Fetch faults, the host's calls and the program load -/

/-- DE2: an invalid word; the record names it. -/
theorem test_invalid_DE2 : after launched 0x0123 (fun t => t.fault) =
    some (some ⟨.invalidOpcode, 0x200, some 0x0123, none, none⟩) := by decide
/-- DE13, DE16: an odd PC, in and past memory. -/
theorem test_fetch_DE13_DE16 : nextOf (instructionStep { launched with pc := 0x201 }) =
      some { launched with pc := 0x201, fault := some ⟨.pcMisaligned, 0x201, none, none, none⟩ } ∧
    nextOf (instructionStep { launched with pc := 0xE91 }) =
      some { launched with pc := 0xE91, fault := some ⟨.pcMisaligned, 0xE91, none, none, none⟩ } := by decide
/-- DE15, DE17: an even PC past memory. -/
theorem test_fetch_DE15_DE17 : nextOf (instructionStep { launched with pc := 0xE90 }) =
      some { launched with pc := 0xE90, fault := some ⟨.memoryBounds, 0xE90, none, some 0xE90, none⟩ } ∧
    nextOf (instructionStep { launched with pc := 0x1000 }) =
      some { launched with pc := 0x1000, fault := some ⟨.memoryBounds, 0x1000, none, some 0x1000, none⟩ } := by decide
/-- DE14: the last word that can be fetched. -/
theorem test_fetch_DE14 : after { launched with pc := 0xE8E } 0x1200 (fun t => (t.pc, faultOf t)) = some (0x200, none) := by
  decide
/-- DI7: no row, no bounds check. -/
theorem test_drw_DI7_no_rows : after (withV 15 1 { glyphDrawn with i := 0xFFFF }) 0xD010
    (fun t => (faultOf t, getV t vf, decide (t.fb = glyphDrawn.fb))) = some (none, 0, true) := by decide
/-- The record codes of R300. -/
theorem test_codes : [FaultKind.invalidOpcode, .stackOverflow, .stackUnderflow, .memoryBounds, .pcMisaligned,
    .keyRange].map FaultKind.code = [1, 2, 3, 4, 5, 6] := by decide
/-- HR1: the font. -/
theorem test_font_HR1 : bytesAt State.reset 0 5 = [0xF0, 0x90, 0x90, 0x90, 0xF0] ∧
    bytesAt State.reset 0x4B 6 = [0xF0, 0x80, 0xF0, 0x80, 0x80, 0] := by decide
/-- HR4: an image of odd length; its last byte is the high half of a word. -/
theorem test_load_HR4 : ((launch? Config.standard [0x61]).map fun s => (fetch s, s.pc)) = some (.ok 0x6100, 0x200) := by decide
/-- R402: a load that is rejected leaves the state as it is. -/
theorem test_load_rejected : loadCall [1, 2, 3, 4, 5] (State.created tiny) = (State.created tiny, .loadRejected) := by decide
/-- HR5, HR6: the step call returns at a key wait with no key; step(0) clears was_blocking. -/
theorem test_step_call_HR5_HR6 :
    let s := withBytes 0x200 [0xF0, 0x0A] { launched with host := { HostPort.initial with getKey := [none] } }
    ((stepCall 5 s).2, (stepCall 5 s).1.wasBlocking, (stepCall 5 s).1.pc) = (.ok, true, 0x200) ∧
    ((stepCall 0 (stepCall 5 s).1).2, (stepCall 0 (stepCall 5 s).1).1.wasBlocking) = (.ok, false) := by decide
/-- HR7, HR8: a fault ends the call, and later calls answer it again with no step run. -/
theorem test_step_call_HR7_HR8 :
    let r : FaultRecord := ⟨.invalidOpcode, 0x200, some 0x0000, none, none⟩
    stepCall 10 launched = (⟨launched.config, launched.v, 0, 0x200, 0, 0, launched.stack, 0, launched.fb, [], false, some r,
      HostPort.initial⟩, .err r) ∧ (stepCall 10 (stepCall 10 launched).1) = ((stepCall 10 launched).1, .err r) := by decide
/-- KT11, KT12, KT14: ticks. -/
theorem test_tick_KT11_KT12 : let s := tick 3 { launched with dt := 5, st := 2 }
    (s.dt, s.st, (tick 3 s).dt, (tick 3 s).st, soundOn s) = (2, 0, 0, 0, false) := by decide
/-- R206: the ticks planned before an instruction step come before it: MOV V1,DT reads 5 − 2. -/
theorem test_due_ticks : after { launched with dt := 5, host := { HostPort.initial with dueTicks := [2, 1] } } 0xF107
    (fun t => (getV t 1, t.dt, t.host.dueTicks)) = some (3, 3, [1]) := by decide
/-- The first step after reset with nothing placed: PC is 0, the word there is the font's 0xF090, which is no instruction. -/
theorem test_reset_runs_into_the_font : nextOf (step State.reset) =
    some { State.reset with fault := some ⟨.invalidOpcode, 0, some 0xF090, none, none⟩ } := by decide
/-- An instruction placed right after reset is the first to run. -/
theorem test_placed_after_reset : nextOf (step (State.reset.withFetchWord 16 0x6AFF)) =
    nextOf (exec (.movImm 10 0xFF) (State.reset.withFetchWord 16 0x6AFF)) := by decide
/-- R102 against R101 (assumption log 13): on glyph 0 already drawn, the first DRW sets VF and clears every pixel it covers,
so the second, though its sprite has set bits, hits none. -/
theorem test_drw_twice_on_set_pixels : (after glyphDrawn 0xD015 fun t => (getV t vf,
    after { t with pc := 0x200 } 0xD015 fun u => (getV u vf, decide (u.fb = glyphDrawn.fb)))) = some (1, some (0, true)) := by
  decide

/-! ### Witnesses: for each statement with hypotheses, states and operands that meet them together, each clause's at the
edges of its range -/

theorem next_of_nextOf {r : Result} {t : State} (h : nextOf r = some t) : r = .next t := by
  cases r <;> simp_all [nextOf]

theorem exists_next {r : Result} (h : (nextOf r).isSome = true) : ∃ t, r = .next t := by
  cases r <;> simp_all [nextOf]

/-- EncodeOfDecodeIsIdentity, DecodeAnswersTheOnlyMatchingRow: a word that decodes, with a row it matches, and one that does
not, matching none. -/
theorem witness_decode : decode 0x8126 = .ok (.shr 1 2) ∧ decode 0x8128 = .error (.invalidOpcode 0x8128) ∧
    (opcodeTable.any fun r => r.matches 0x8126) = true ∧ (opcodeTable.any fun r => r.matches 0x8128) = false := by decide

/-- AssemblyRoundTrip. -/
theorem witness_toInstr : AsmInstr.toInstr? ⟨.JMP, [.reg 0, .num 0xFFF]⟩ = some (.jmpV0 0xFFF) := by decide

/-- A launched state with a word at PC, no ticks due. -/
def running (w : Word) : State := withBytes 0x200 [hiByte w, loByte w] launched

/-- StepRunsTheDecodedInstruction: at the last address that can be fetched from, with no ticks due and with some. -/
theorem witness_step_decoded :
    let s := withBytes 0xE8E [0x12, 0x00] { launched with pc := 0xE8E }
    s.fault = none ∧ s.pc.toNat % 2 = 0 ∧ s.pc.toNat + 1 < s.config.memSize ∧
      decode (byteAt s s.pc.toNat ++ byteAt s (s.pc.toNat + 1)) = .ok (.jmp 0x200) ∧ s.host.dueTicks = [] ∧
      { s.host with dueTicks := [3] }.dueTicks = 3 :: [] := by decide

/-- A latched state. -/
def latched : State := { launched with fault := some ⟨.stackUnderflow, 0x200, some 0x00EE, none, none⟩ }

/-- InstructionStepFollowsItsOrder, clause by clause: latched; odd; even past memory, at the first such address; an invalid
word; a word that decodes, at the last address. -/
theorem witness_order :
    latched.fault.isSome = true ∧ launched.fault = none ∧ (0x201 : Word).toNat % 2 ≠ 0 ∧
    ((0xE90 : Word).toNat % 2 = 0 ∧ (0xE90 : Word).toNat + 1 ≥ Config.standard.memSize) ∧
    ((0xE8E : Word).toNat % 2 = 0 ∧ (0xE8E : Word).toNat + 1 < Config.standard.memSize) ∧
    (0x8128 : Word).toNat = 256 * (byteAt (running 0x8128) 0x200).toNat + (byteAt (running 0x8128) 0x201).toNat ∧
    decode 0x8128 = .error (.invalidOpcode 0x8128) ∧
    (0x8126 : Word).toNat = 256 * (byteAt (running 0x8126) 0x200).toNat + (byteAt (running 0x8126) 0x201).toNat ∧
    decode 0x8126 = .ok (.shr 1 2) := by decide

/-- StepStopsExactlyOnALatchedFault, TicksAreASeparateAgent: both cases. -/
theorem witness_latched : launched.fault = none ∧ ∃ r, latched.fault = some r := ⟨by decide, _, rfl⟩

/-- A state each instruction that can fault faults in: SP full or empty, I at the last byte of memory, V1 no key. -/
def faulty (sp : Nat) : State := withV 1 0x10 { launched with i := 0xE8F, sp := sp }

/-- Whether exec answers a next state, and whether a fault is latched in it. -/
def latches (i : Instr) (s : State) : Option Bool := (nextOf (exec i s)).map fun t => t.fault.isSome

/-- FaultsArePrecise, NextPcByKind: every instruction that can fault, faulting; and each of them at the edge where it does
not. -/
theorem witness_faults : latches (.call 0x300) (faulty 12) = some true ∧ latches (.call 0x300) (faulty 11) = some false ∧
    latches .ret (faulty 0) = some true ∧ latches .ret (faulty 1) = some false ∧
    [Instr.drw 0 0 2, .movB 0, .storeRegs 1, .loadRegs 1, .skp 1, .sknp 1].map (fun i => latches i (faulty 0)) =
      List.replicate 6 (some true) ∧
    [Instr.drw 0 0 1, .drw 0 0 0, .storeRegs 0, .loadRegs 0].map (fun i => latches i (faulty 0)) =
      List.replicate 4 (some false) := by decide

/-- A state the invariant holds in: a program with a CALL at 0x200, a return address on the stack. -/
def called : State := { running 0x2300 with sp := 1, stack := launched.stack.set 0 0x206 }

theorem called_inv : Inv called where
  mem_wf := by decide
  stack_shape := by decide
  fb_shape := by decide
  pc_bound := by decide
  stack_entries := fun k hk => by
    obtain rfl : k = 0 := by simp only [called] at hk; omega
    decide
  fault_pc := fun _ h => by cases h
  fault_shape := fun _ h => by cases h

/-- InvariantKeptByEveryStep, InvariantKeptByHostCalls, ConfigurationNeverChanges: such a state and its step. -/
theorem witness_inv : Inv called ∧ ∃ t, step called = .next t := ⟨called_inv, exists_next (by decide)⟩

/-- OnlyCallAndRetChangeTheStack: a CALL and a RET that do not fault. -/
theorem witness_stack : latches (.call 0x300) called = some false ∧ latches .ret called = some false ∧
    called.fault = none := by decide

/-- The numbers of rows and the addresses DRW's clauses meet at (DI7, DI8, DI9). -/
theorem witness_drw_bounds :
    (1 ≤ (5 : Rows).val ∧ (0xE8C : Word).toNat + (5 : Rows) - 1 ≥ Config.standard.memSize) ∧
    (0xE8B : Word).toNat + (5 : Rows) - 1 < Config.standard.memSize ∧ (0 : Rows).val = 0 := by decide

/-- DrwDrawsItsSprite: pixel (0, 0) is covered by glyph 0 at the origin and pixel (1, 1) is not; on the glyph already drawn
a covered pixel is set, on the clear screen none is. -/
theorem witness_drw : FbShape glyphDrawn.config glyphDrawn.fb ∧ drwCovers 0 1 5 glyphDrawn 0 0 ∧ ¬ drwCovers 0 1 1 glyphDrawn 0 1 ∧
    pixel glyphDrawn.fb 0 0 = true ∧ ∀ px py, pixel launched.fb px py = false := by
  refine ⟨by decide, ⟨0, 0, by decide, by decide, by decide, by decide, by decide⟩, ?_, by decide, fun px py => ?_⟩
  · rintro ⟨r, c, hr, -, -, -, hy⟩
    have : r = 0 := by
      have : (bytesAt glyphDrawn glyphDrawn.i.toNat (1 : Rows)).length = 1 := by decide
      omega
    subst this
    revert hy
    decide
  · exact pixel_cleared (config := Config.standard) px py

/-- A state after a DRW of glyph 0 at the origin, `n` rows of it. -/
def drawnTwice (s : State) (n : Rows) : Option (State × State) :=
  (nextOf (exec (.drw 0 1 n) s)).bind fun t => (nextOf (exec (.drw 0 1 n) t)).map fun u => (t, u)

/-- DrwTwiceRestoresTheScreen, RepeatedDrwInTheWordsOfR102: two DRWs in a row, on a screen clear before the first and on
one where every covered pixel is set. -/
theorem witness_drw_twice : FbShape launched.config launched.fb ∧ FbShape glyphDrawn.config glyphDrawn.fb ∧
    (drawnTwice launched 5).isSome = true ∧ (drawnTwice glyphDrawn 5).isSome = true ∧
    (0 : Reg) ≠ vf ∧ (1 : Reg) ≠ vf ∧ launched.i.toNat + (5 : Rows) - 1 < Config.standard.memSize ∧
    ((bytesAt launched launched.i.toNat (5 : Rows)).any fun b => decide (b ≠ 0)) = true ∧
    pixel launched.fb 0 0 = false ∧ pixel glyphDrawn.fb 0 0 = true := by decide

/-- FramebufferPacking: the last column and row. -/
theorem witness_packing : 63 < Config.standard.dispW ∧ 31 < Config.standard.dispH := by decide

/-- CallPushesTheReturnAddress and RetPopsTheReturnAddress: SP at both edges of each clause. -/
theorem witness_call_ret : StackShape called ∧
    [0, 11, 12].map (fun sp => decide (StackShape (faulty sp))) = [true, true, true] ∧
    (faulty 11).sp < launched.config.stackDepth ∧ (faulty 12).sp = launched.config.stackDepth ∧
    (faulty 12).sp = 11 + 1 ∧ (faulty 1).sp = 0 + 1 ∧ (faulty 0).sp = 0 := by decide

/-- CallsAndReturnsNest: twelve CALLs from an empty stack. -/
theorem witness_nest : launched.fault = none ∧
    StackShape launched ∧
    launched.sp + (List.replicate 12 ((0x200 : Word), (0x200 : Addr12))).length ≤ launched.config.stackDepth := by decide

/-- StaleEntriesAreUnobservable: two states that differ in a stale entry, stepping; and stopped. -/
theorem witness_stale :
    let other : State := { called with stack := called.stack.set 1 0xFFFF }
    AgreeButStale called other ∧ called ≠ other ∧ (∃ t, step called = .next t) ∧ ∃ f, step latched = .fault f :=
  ⟨⟨rfl, by decide⟩, by decide, exists_next (by decide), _, rfl⟩

/-- MovBStoresTheDigits, StoreRegsStoresV0ToVx, LoadRegsLoadsV0ToVx: I at both edges. -/
theorem witness_memory_bounds :
    (0xE8D : Word).toNat + 2 < Config.standard.memSize ∧ (0xE8E : Word).toNat + 2 ≥ Config.standard.memSize ∧
    (0xE80 : Word).toNat + (15 : Reg) < Config.standard.memSize ∧ (0xE81 : Word).toNat + (15 : Reg) ≥ Config.standard.memSize ∧
    (0xE8F : Word).toNat + (0 : Reg) < Config.standard.memSize ∧ (0xE90 : Word).toNat + (0 : Reg) ≥ Config.standard.memSize := by decide

/-- StoreThenLoadRestoresRegisters: a store and a load after it, both without a fault and both with one. -/
theorem witness_store_load :
    [({ launched with i := 0xE80 } : State), { launched with i := 0xE81 }].map (fun s =>
      (nextOf (exec (.storeRegs 15) s)).bind fun t => (latches (.loadRegs 15) t).map fun b => (t.fault.isSome, b)) =
    [some (false, false), some (true, true)] := by decide

/-- MemoryHoldsWhatWasWritten: a memory in canonical form and the last address. -/
theorem witness_memory : Memory.wf Config.standard (writeByte Config.standard (writeByte Config.standard [] 0xE8F 7) 0 0) = true ∧
    Memory.wf Config.standard (writeByte Config.standard (writeByte Config.standard [] 0 0) 0xE8F 7) = true ∧ 0xE8F < Config.standard.memSize ∧
    writeByte Config.standard (writeByte Config.standard [] 0xE8F 7) 0 0 =
      writeByte Config.standard (writeByte Config.standard [] 0 0) 0xE8F 7 := by decide

/-- StoredBytesAreFetchedNext: I two bytes after PC. -/
theorem witness_store_fetch : let s : State := { launched with i := 0x202 }
    1 ≤ (1 : Reg).val ∧ s.fault = none ∧ s.pc.toNat % 2 = 0 ∧ s.i.toNat = s.pc.toNat + 2 ∧
    s.i.toNat + (1 : Reg) < Config.standard.memSize ∧ (nextOf (exec (.storeRegs 1) s)).isSome = true := by decide

/-- KeySkipsAskTheHost, HostAnswersAreScriptedFirst: the last key, scripted, and the first number that is none (KT3, KT4). -/
theorem witness_keys : (getV (withV 1 15 launched) 1).toNat = (15 : Key).val ∧ (getV (withV 1 16 launched) 1).toNat > 15 ∧
    { HostPort.initial with keyDown := [true] }.keyDown = true :: [] := by decide

/-- KeyWaitStoresOrHolds, HostAnswersAreScriptedFirst: both answers scripted; and the key wait at PC. -/
theorem witness_key_wait : { HostPort.initial with getKey := [some 15] }.getKey = some 15 :: [] ∧
    { HostPort.initial with getKey := [none] }.getKey = none :: [] ∧
    (running 0xF10A).fault = none ∧ fetch (running 0xF10A) = .ok (encode (.movVxK 1)) := by decide

/-- RndMasksTheDraw, HostAnswersAreScriptedFirst: a bit outside kk, a scripted draw. -/
theorem witness_rnd : (0x0F : Byte).getLsbD 7 = false ∧ { HostPort.initial with rand := [0xAB] }.rand = 0xAB :: [] := by
  decide

/-- OnlyListedInstructionsWriteV: an instruction that writes VF though it names V1. -/
theorem witness_writes : (nextOf (exec (.addReg 1 1) (withV 1 0x90 launched))).map (fun t => decide (getV t vf = getV launched vf))
    = some false := by decide

/-- OnlyListedInstructionsWriteTheRest: one instruction for each part. -/
theorem witness_writes_rest : let s : State := withV 1 7 { glyphDrawn with host := ⟨[], [true], [some 1], [], []⟩ }
    ((nextOf (exec (.movI 5) s)).map fun t => decide (t.i = s.i)) = some false ∧
    ((nextOf (exec (.movDTVx 1) s)).map fun t => decide (t.dt = s.dt)) = some false ∧
    ((nextOf (exec (.movSTVx 1) s)).map fun t => decide (t.st = s.st)) = some false ∧
    ((nextOf (exec .cls s)).map fun t => decide (t.fb = s.fb)) = some false ∧
    ((nextOf (exec (.movB 1) s)).map fun t => decide (t.mem = s.mem)) = some false ∧
    ((nextOf (exec (.movVxK 1) s)).map fun t => decide (t.wasBlocking = s.wasBlocking)) = some false ∧
    ((nextOf (exec (.skp 1) s)).map fun t => decide (t.host = s.host)) = some false := by decide

/-- FetchChecksTarget: an odd target; an even one past memory, the first (CF15, CF17). -/
theorem witness_target : (zext12 0x301).toNat % 2 = 1 ∧ (zext12 0xE90).toNat % 2 = 0 ∧
    (zext12 0xE90).toNat + 1 ≥ Config.standard.memSize := by decide

/-- ProgramLoad, LaunchValues, RejectedLoadsMayBeRetried: the longest image of the source's machine and one too long
(HR2, HR3). -/
theorem witness_load :
    (List.replicate 0xC90 (0 : Byte)).length ≤ launched.config.memSize - launched.config.loadBase ∧
    (List.replicate 0xC91 (0 : Byte)).length > launched.config.memSize - launched.config.loadBase := by
  refine ⟨?_, ?_⟩ <;> rw [List.length_replicate] <;> decide

/-- LaunchValues, SessionsMeetTheInvariant, RejectedLoadsMayBeRetried: with other parameters, an image that is
accepted at the last length, and one that is rejected at the next. -/
theorem witness_tiny : (launch? tiny [0x20, 0x54, 0x20, 0x54]).isSome = true ∧
    launch? tiny [1, 2, 3, 4, 5] = none ∧
    (Session.final? ⟨tiny, [[1, 2, 3, 4, 5], [0x10, 0x52]], [.step 3, .tick 1]⟩).isSome = true := by decide

/-- R7: a step takes its parameters from the state: a second CALL overflows a stack of one entry, MOV F counts four
bytes to a glyph from the font's base, an address at MEM_SIZE is no memory, and a sprite wraps at column 16. -/
theorem test_parameters :
    (((launch? tiny [0x20, 0x54, 0x20, 0x54]).map (stepCall 2)).map fun p =>
      (p.1.pc, p.1.sp, faultOf p.1)) = some (0x54, 1, some (.stackOverflow, none)) := by decide
theorem test_parameters_memory :
    (((launch? tiny [0x60, 0x01, 0xF0, 0x29]).map (stepCall 2)).map fun p =>
      (p.1.i, byteAt p.1 p.1.i.toNat, faultOf (stepCall 1 p.1).1)) = some (6, 0xAA, some (.memoryBounds, some 86)) := by
  decide
theorem test_parameters_display :
    (nextOf (exec (.drw 0 1 1) (withV 0 31 { State.created tiny with i := 2 }))).map (fun t =>
      ([14, 15, 0, 1, 2].map (pixel t.fb · 0), (fbImage tiny t.fb).take 3)) =
    some ([false, true, false, true, false], [0x54, 0x01, 0]) := by decide

/-- R404, R405: a session whose first image is too long runs the second (the model's choice, assumption log 12). -/
theorem test_session_retries : (Session.final? ⟨tiny, [[1, 2, 3, 4, 5], [0x10, 0x52]], [.step 3, .tick 1]⟩).map
    (fun s => (s.pc, s.fault)) = some (0x52, none) ∧ Session.final? ⟨tiny, [[1, 2, 3, 4, 5]], [.step 3]⟩ = none := by decide

/-- HostWritesTimersOnly: no step to run, and a faulted core. -/
theorem witness_host_writes : (0 : Nat) = 0 ∧ latched.fault ≠ none := by decide

/-- MOV V1,K and then a JMP to itself; the host answers first no key and then key 7; DT and ST run. -/
def waiting : State :=
  { withBytes 0x200 [0xF1, 0x0A, 0x12, 0x02] launched with
    dt := 3, st := 2, host := { HostPort.initial with getKey := [none, some 7] } }

/-- A step and a tick by turns. -/
def alternating (n : Nat) : HostCall := if n % 2 = 0 then .step 1 else .tick 1

/-- The program past its key wait: at the JMP to itself. -/
def Settled (s : State) : Prop := s.fault = none ∧ fetch s = .ok 0x1202 ∧ s.pc = 0x202

theorem settled_step {s t : State} (h : Settled s) (e : instructionStep s = .next t) : t = s := by
  rw [instructionStep_of_decoded h.1 h.2.1 (i := .jmp 0x202) (by decide)] at e
  simp only [exec, execJmp, redirect, Host.Outcome.next.injEq] at e
  rw [← e, show zext12 0x202 = s.pc by rw [h.2.2]; rfl]

theorem settled_call (c : HostCall) (s : State) (h : Settled s) : Settled (hostCall c s).1 :=
  hostCall_keeps (fun s t h e => by rw [settled_step h e]; exact h) (fun _ _ h => h) (fun _ h => h) c s h

theorem waiting_settles (k : Nat) : Settled (stateAt alternating waiting (k + 3)) := by
  induction k with
  | zero => exact ⟨by decide, by decide, by decide⟩
  | succ k ih => exact settled_call _ _ ih

theorem settled_not_waiting {s : State} (h : Settled s) (x : Reg) : ¬ AtKeyWait x s := fun w => by
  have e := w.2.symm.trans h.2.1
  simp only [Except.ok.injEq] at e
  clear w
  revert x
  decide

/-- KeyWaitEndsUnderFairness: a fair host and a core at a key wait. -/
theorem witness_fair : HostFair alternating waiting ∧ AtKeyWait 1 waiting := by
  refine ⟨⟨fun n => ⟨2 * n, 0, by omega, by simp [alternating]⟩, fun n => ⟨2 * n + 1, 0, by omega, ?_⟩,
    fun n => ⟨2 * n + 1 + 3, 0, by omega, ?_, fun x w => absurd w (settled_not_waiting (waiting_settles _) x)⟩⟩,
    by decide, by decide⟩
  · simp [alternating]
  · simp only [alternating]; rw [if_pos (by omega)]

/-- TimersRunDownUnderFairness: with that host no step changes a timer. -/
theorem witness_timers_run_down (m n : Nat) (_ : alternating m = .step n) :
    (stateAt alternating waiting (m + 1)).dt = (stateAt alternating waiting m).dt ∧
    (stateAt alternating waiting (m + 1)).st = (stateAt alternating waiting m).st := by
  match m with
  | 0 => decide
  | 1 => simp [alternating] at *
  | 2 => decide
  | k + 3 =>
    have settled := waiting_settles k
    show (hostCall (alternating (k + 3)) _).1.dt = _ ∧ (hostCall (alternating (k + 3)) _).1.st = _
    simp only [*]
    exact (runSteps_keeps (P := fun t => Settled t ∧ t.dt = (stateAt alternating waiting (k + 3)).dt ∧
        t.st = (stateAt alternating waiting (k + 3)).st)
      (fun s t h e => by rw [settled_step h.1 e]; exact h) n
      { stateAt alternating waiting (k + 3) with wasBlocking := false } ⟨settled, rfl, rfl⟩).2

/-- StepCallComposition: a step that faults, one that ran a key wait, and one that goes on; and a fault on entry. -/
theorem witness_step_call :
    ([running 0x0000, { running 0xF10A with host := { HostPort.initial with getKey := [none] } }, running 0x1200].map fun s =>
      (nextOf (instructionStep { s with wasBlocking := false })).map fun t => (t.fault.isSome, t.wasBlocking)) =
    [some (true, false), some (false, true), some (false, false)] ∧ latched.fault.isSome = true := by decide

/-- WasBlockingMeansKeyWait: a step of a key wait and one of another instruction. -/
theorem witness_was_blocking :
    let s : State := { running 0xF10A with host := { HostPort.initial with getKey := [none] } }
    s.fault = none ∧ s.wasBlocking = false ∧ (nextOf (instructionStep s)).map (fun t => t.fault) = some none ∧
    (running 0x1200).fault = none ∧ (running 0x1200).wasBlocking = false ∧
    (nextOf (instructionStep (running 0x1200))).map (fun t => t.fault) = some none := by decide

/-- SelfJumpLeavesAllUnchanged: JMP 0x200 at 0x200 (HR9). -/
theorem witness_self_jump : EndedNormally (running 0x1200) ∧ (running 0x1200).host.dueTicks = [] :=
  ⟨⟨by decide, by decide, 0x200, by decide, by decide⟩, by decide⟩

/-- PlacedWordIsRunNext: a state that can be fetched from, and ones that cannot. -/
theorem witness_placed :
    fetchableAddress { launched with pc := 0xE8E } = 0xE8E ∧ fetchableAddress { launched with pc := 0xE90 } = 0x200 ∧
    fetchableAddress { launched with pc := 0x201 } = 0x200 ∧ decodeTableWord 16 0xDAB5 = some (.drw 10 11 5) := by decide

end Sys2Proof.Tests
end

section
/-! SUPPORT. The parameters of R7 are the core's for good: what every instruction, step and host call keeps. -/

namespace Sys2Proof.Machine

variable {s t : State}

/-- The meanings with several outcomes keep the configuration in each of them, the others in their one next state. -/
theorem exec_config {i : Instr} (h : exec i s = .next t) : t.config = s.config := by
  cases i with
  | ret => obtain ⟨_, _, rfl⟩ | ⟨_, rfl⟩ := ret_cases h <;> rfl
  | call nnn => obtain ⟨_, rfl⟩ | ⟨_, rfl⟩ := call_cases h <;> rfl
  | drw x y n => obtain rfl | ⟨_, _, rfl⟩ := drw_cases h <;> rfl
  | skp x => obtain ⟨_, _, rfl⟩ | ⟨_, rfl⟩ := keySkip_cases h <;> rfl
  | sknp x => obtain ⟨_, _, rfl⟩ | ⟨_, rfl⟩ := keySkip_cases h <;> rfl
  | movVxK x => obtain ⟨_, _, rfl⟩ | ⟨_, rfl⟩ := movVxK_cases h <;> rfl
  | movB x => obtain ⟨_, rfl⟩ | ⟨_, _, rfl⟩ := movB_cases h <;> rfl
  | storeRegs x => obtain ⟨_, rfl⟩ | ⟨_, _, _, rfl⟩ := storeRegs_cases h <;> rfl
  | loadRegs x => obtain ⟨_, rfl⟩ | ⟨_, _, _, rfl⟩ := loadRegs_cases h <;> rfl
  | _ => cases h; rfl

theorem instructionStep_config (h : instructionStep s = .next t) : t.config = s.config := by
  obtain ⟨_, ⟨_, _, rfl⟩ | ⟨_, _, _, _, rfl⟩ | ⟨_, _, _, _, executed⟩⟩ := instructionStep_cases h
  · rfl
  · rfl
  · exact exec_config executed

theorem step_config (h : step s = .next t) : t.config = s.config :=
  (instructionStep_config h).trans (applyDueTicks_config s)

@[simp] theorem hostCall_config (c : HostCall) (s : State) : (hostCall c s).1.config = s.config :=
  hostCall_keeps (P := fun u => u.config = s.config) (fun _ _ same stepped => (instructionStep_config stepped).trans same)
    (fun _ _ same => same) (fun _ same => same) c s rfl

/-- Settles O17: a step is ticks and an instruction step, a host call is ticks or instruction steps, and all of them keep
the configuration. -/
theorem configurationNeverChanges : Obligations.ConfigurationNeverChanges :=
  fun s => ⟨fun _ => step_config, fun c => hostCall_config c s⟩

end Sys2Proof.Machine
end

section
/-! SUPPORT. What an executed instruction can do, said once for all instructions: it completes or it raises a fault. -/

namespace Sys2Proof.Machine

variable {i : Instr} {s t : State}

/-! ### The records of R301 -/

/-- A fault of the call stack or of decoding (R300, R301). -/
theorem recordShape_plain {m : Nat} {kind : FaultKind} {pc w : Word}
    (plain : kind ∉ [.memoryBounds, .keyRange, .pcMisaligned]) : RecordShape m ⟨kind, pc, some w, none, none⟩ := by
  simp only [List.mem_cons, List.not_mem_nil, or_false, not_or] at plain
  obtain ⟨bounds, key, odd⟩ := plain
  constructor <;> simp [bounds, key, odd]

/-- A fault of an instruction's own memory range: the fetch before it was inside memory (R53, R301). -/
theorem recordShape_bounds {m bad : Nat} {pc w : Word} (outside : m ≤ bad) (fetched : pc.toNat + 1 < m) :
    RecordShape m ⟨.memoryBounds, pc, some w, some bad, none⟩ := by
  constructor <;> simp [outside, fetched]

/-- A key skip on a number that is no key (R190, R301). -/
theorem recordShape_keyRange {m : Nat} {pc w : Word} {k : Byte} (outside : 15 < k.toNat) :
    RecordShape m ⟨.keyRange, pc, some w, none, some k⟩ := by
  constructor <;> simp [outside]

/-- A fault of the fetch itself (R301, R306). -/
theorem recordShape_of_fetch_error {r : FaultRecord} (h : fetch s = .error r) :
    r.pc = s.pc ∧ RecordShape s.config.memSize r := by
  obtain ⟨_, rfl⟩ | ⟨_, past, rfl⟩ := fetch_eq_error.1 h
  · exact ⟨rfl, by constructor <;> simp⟩
  · exact ⟨rfl, by constructor <;> simp [past]⟩

/-! ### The two ways an instruction ends -/

/-- The next state of an instruction that faults: the latch holds a record of pc0, and one of the shape of R301 where the
instruction was fetched from memory. -/
def Raises (s t : State) : Prop :=
  ∃ r : FaultRecord, r.pc = s.pc ∧ (s.pc.toNat + 1 < s.config.memSize → RecordShape s.config.memSize r) ∧
    t = { s with fault := some r }

/-- The next state of an instruction that does not fault. An instruction without another outcome has the one its meaning
answers. -/
def Completes (i : Instr) (s t : State) : Prop :=
  match i with
  | .ret => ∃ k, s.sp = k + 1 ∧ t = { s with pc := stackEntry s k, sp := k }
  | .call nnn => s.sp < s.config.stackDepth ∧
      t = { s with pc := zext12 nnn, sp := s.sp + 1, stack := s.stack.set s.sp (s.pc + 2) }
  | .drw x y n => t = advance (drawn x y n s)
  | .skp _ => ∃ k : Key, t = skipIf ((hostKeyDown k s.host).1 == true) { s with host := (hostKeyDown k s.host).2 }
  | .sknp _ => ∃ k : Key, t = skipIf ((hostKeyDown k s.host).1 == false) { s with host := (hostKeyDown k s.host).2 }
  | .movB x => indexAddress s + 3 ≤ s.config.memSize ∧
      t = advance (storeBytes (indexAddress s) (bcdDigits (getV s x)) s)
  | .storeRegs x => indexAddress s + (x + 1) ≤ s.config.memSize ∧
      t = advance (storeBytes (indexAddress s) (registersUpTo x s) s)
  | .loadRegs x => t = advance { s with v := loadRegisters x (indexAddress s) s }
  | i => exec i s = .next t

/-- Everything an executed instruction can do: it completes, or it raises a fault. -/
theorem exec_cases (h : exec i s = .next t) : Completes i s t ∨ Raises s t := by
  cases i with
  | ret =>
    exact (ret_cases h).imp_right fun ⟨_, e⟩ => ⟨_, rfl, fun _ => recordShape_plain (by decide), e⟩
  | call nnn =>
    exact (call_cases h).imp_right fun ⟨_, e⟩ => ⟨_, rfl, fun _ => recordShape_plain (by decide), e⟩
  | drw x y n =>
    exact (drw_cases h).imp_right fun ⟨_, outside, e⟩ => ⟨_, rfl, recordShape_bounds outside, e⟩
  | skp x =>
    exact (keySkip_cases h).imp (fun ⟨k, _, e⟩ => ⟨k, e⟩) fun ⟨noKey, e⟩ => ⟨_, rfl, fun _ => recordShape_keyRange noKey, e⟩
  | sknp x =>
    exact (keySkip_cases h).imp (fun ⟨k, _, e⟩ => ⟨k, e⟩) fun ⟨noKey, e⟩ => ⟨_, rfl, fun _ => recordShape_keyRange noKey, e⟩
  | movB x =>
    exact (movB_cases h).imp_right fun ⟨_, outside, e⟩ => ⟨_, rfl, recordShape_bounds outside, e⟩
  | storeRegs x =>
    exact (storeRegs_cases h).imp_right fun ⟨_, _, outside, e⟩ => ⟨_, rfl, recordShape_bounds outside, e⟩
  | loadRegs x =>
    exact (loadRegs_cases h).imp And.right fun ⟨_, _, outside, e⟩ => ⟨_, rfl, recordShape_bounds outside, e⟩
  | _ => exact .inl h

/-- An instruction that completes leaves the latch as it is. -/
theorem Completes.fault (done : Completes i s t) : t.fault = s.fault := by
  cases i with
  | ret => obtain ⟨_, _, rfl⟩ := done; rfl
  | call | skp | sknp | movB | storeRegs => obtain ⟨_, rfl⟩ := done; rfl
  | drw | loadRegs => obtain rfl := done; rfl
  | movVxK x => obtain ⟨_, _, rfl⟩ | ⟨_, rfl⟩ := movVxK_cases done <;> rfl
  | _ => cases done; rfl

/-- With no fault latched after it, an instruction has completed. -/
theorem exec_completes (h : exec i s = .next t) (quiet : t.fault = none) : Completes i s t :=
  (exec_cases h).resolve_right fun ⟨_, _, _, e⟩ => by simp [e] at quiet

/-- A checked instruction answers a next state whether its range is memory or not. -/
theorem checked_answers (i : Instr) (a n : Nat) (s rest : State) : ∃ t, checked i a n s rest = .next t :=
  (checked_cases i a n s rest).elim (fun e => ⟨_, e⟩) fun ⟨_, _, e⟩ => ⟨_, e⟩

/-- So does a key skip, whether V[x] is a key or not. -/
theorem keySkip_answers (i : Instr) (x : Reg) (on : Bool) (s : State) : ∃ t, keySkip i x on s = .next t := by
  unfold keySkip
  split <;> exact ⟨_, rfl⟩

/-- Every instruction answers a next state. -/
theorem exec_answers (i : Instr) (s : State) : ∃ t, exec i s = .next t := by
  cases i with
  | ret => simp only [exec, execRet]; split <;> exact ⟨_, rfl⟩
  | call nnn => simp only [exec, execCall]; split <;> exact ⟨_, rfl⟩
  | movVxK x => simp only [exec, execMovVxK]; split <;> exact ⟨_, rfl⟩
  | skp x => exact keySkip_answers _ _ _ _
  | sknp x => exact keySkip_answers _ _ _ _
  | drw x y n =>
    simp only [exec, execDrw]
    split
    · exact ⟨_, rfl⟩
    · exact checked_answers _ _ _ _ _
  | movB x => exact checked_answers _ _ _ _ _
  | storeRegs x => exact checked_answers _ _ _ _ _
  | loadRegs x => exact checked_answers _ _ _ _ _
  | _ => exact ⟨_, rfl⟩

/-- With no fault latched an instruction step answers a next state (R305). -/
theorem instructionStep_answers (quiet : s.fault = none) : ∃ t, instructionStep s = .next t := by
  cases fetched : fetch s with
  | error r => exact ⟨_, instructionStep_of_fetch_error quiet fetched⟩
  | ok w =>
    cases decoded : decode w with
    | error e => exact ⟨_, instructionStep_of_invalid quiet fetched decoded⟩
    | ok i => rw [instructionStep_of_decoded quiet fetched decoded]; exact exec_answers i s

/-- Settles O10: what stops a step is a latched fault alone, since every instruction answers a next state. -/
theorem stepStopsExactlyOnALatchedFault : Obligations.StepStopsExactlyOnALatchedFault := by
  intro s
  have answers (quiet : s.fault = none) : ∃ t, step s = .next t := instructionStep_answers (by simpa using quiet)
  have stops (r) (latched : s.fault = some r) : step s = .fault (.latched r) :=
    instructionStep_of_latched (by simpa using latched)
  refine ⟨answers, stops, fun q refused => ?_⟩
  cases hf : s.fault with
  | none => obtain ⟨t, stepped⟩ := answers hf; rw [stepped] at refused; cases refused
  | some r => rw [stops r hf] at refused; cases refused

end Sys2Proof.Machine
end

section
/-! SUPPORT. Who writes what, over all instructions: V, the rest of the state, and PC. -/

namespace Sys2Proof.Machine

variable {i : Instr} {s t : State}

/-! ### The writers of V -/

/-- The register a write changes is the one it names. -/
theorem eq_of_getV_setV_ne {x r : Reg} {b : Byte} (changed : getV (setV x b s) r ≠ getV s r) : r = x := by
  by_contra other
  exact changed (by simp [other])

/-- The register a result and a flag change is the destination or VF (R142). -/
theorem eq_or_of_getV_writeResultAndFlag_ne {x r : Reg} {b flag : Byte}
    (changed : getV (writeResultAndFlag x b flag s) r ≠ getV s r) : r = x ∨ r = vf := by
  by_contra other
  rw [not_or] at other
  exact changed (by simp [writeResultAndFlag, other])

/-- The registers a load changes are V0 to Vx (R176). -/
theorem le_of_loadRegisters_ne {x r : Reg} {a : Nat} (changed : (loadRegisters x a s).get r ≠ getV s r) : r ≤ x := by
  by_contra other
  exact changed (by simp [loadRegisters, Vector.get_eq_getElem, getV, other])

/-- Settles O47: a faulting instruction writes no register; of those that complete each writer's one named update tells
which register changed. -/
theorem onlyListedInstructionsWriteV : Obligations.OnlyListedInstructionsWriteV := by
  intro i s t r h changed
  obtain done | ⟨_, _, _, rfl⟩ := exec_cases h
  case inr => exact absurd rfl changed
  cases i with
  | movImm | addImm | movReg | orReg | andReg | xorReg | rnd | movVxDT =>
    cases done; exact eq_of_getV_setV_ne changed
  | addReg | sub | shr | subn | shl =>
    cases done; exact eq_or_of_getV_writeResultAndFlag_ne changed
  | movVxK x =>
    obtain ⟨_, _, rfl⟩ | ⟨_, rfl⟩ := movVxK_cases done
    · exact ⟨eq_of_getV_setV_ne changed, advance_pc _⟩
    · exact absurd rfl changed
  | drw x y n => obtain rfl := done; exact eq_of_getV_setV_ne changed
  | loadRegs x => obtain rfl := done; exact le_of_loadRegisters_ne changed
  | ret => obtain ⟨_, _, rfl⟩ := done; exact changed rfl
  | call | skp | sknp | movB | storeRegs => obtain ⟨_, rfl⟩ := done; exact changed rfl
  | _ => cases done; exact changed rfl

/-! ### The writers of the rest -/

/-- Settles O48: what an instruction that completes does not list is unchanged by its update, and a fault changes the latch
only. -/
theorem onlyListedInstructionsWriteTheRest : Obligations.OnlyListedInstructionsWriteTheRest := by
  intro i s t h
  obtain done | ⟨_, _, _, rfl⟩ := exec_cases h
  case inr => simp
  cases i with
  | movVxK x => obtain ⟨_, _, rfl⟩ | ⟨_, rfl⟩ := movVxK_cases done <;> simp
  | drw x y n => obtain rfl := done; simp [drawn]
  | loadRegs x => obtain rfl := done; simp
  | ret => obtain ⟨_, _, rfl⟩ := done; simp
  | call | skp | sknp | movB | storeRegs => obtain ⟨_, rfl⟩ := done; simp
  | _ => cases done; simp [writeResultAndFlag]

/-! ### The next PC -/

/-- A conditional skip, by the condition its flag stands for (R25). -/
theorem skipIf_pc_of_iff {c : Bool} {p : Prop} [Decidable p] (flag : c = true ↔ p) (s : State) :
    (skipIf c s).pc = if p then s.pc + 4 else s.pc + 2 := by
  simp only [skipIf_pc, flag]
  exact apply_ite (s.pc + ·) p 4 2

/-- An address immediate keeps its value as a word (R10). -/
theorem toNat_zext12 (nnn : Addr12) : (zext12 nnn).toNat = nnn.toNat :=
  BitVec.toNat_setWidth_of_le (by decide)

/-- The target of JMP V0 does not wrap (R127, decision D32). -/
theorem toNat_indexedTarget (nnn : Addr12) (s : State) : (indexedTarget nnn s).toNat = nnn.toNat + (getV s 0).toNat := by
  simp only [indexedTarget, BitVec.toNat_add, BitVec.toNat_setWidth]
  omega

/-- Settles O49: a fault keeps PC; an instruction that completes ends in one of R25's four ways, by the one operation on PC
its meaning calls. -/
theorem nextPcByKind : Obligations.NextPcByKind := by
  intro i s t quiet h
  obtain done | ⟨r, _, _, rfl⟩ := exec_cases h
  case inr => exact ⟨fun _ => rfl, nofun⟩
  refine ⟨fun faulted => absurd (done.fault.trans quiet) faulted, fun _ => ?_⟩
  cases i with
  | seImm | sneImm | seReg | sneReg => cases done; exact skipIf_pc_of_iff (by simp) s
  | skp x => obtain ⟨k, rfl⟩ := done; exact ⟨k, _, rfl, skipIf_pc_of_iff beq_iff_eq _⟩
  | sknp x => obtain ⟨k, rfl⟩ := done; exact ⟨k, _, rfl, skipIf_pc_of_iff beq_iff_eq _⟩
  | jmp nnn => cases done; exact toNat_zext12 nnn
  | call nnn => obtain ⟨_, rfl⟩ := done; exact toNat_zext12 nnn
  | jmpV0 nnn => cases done; exact toNat_indexedTarget nnn s
  | ret => obtain ⟨k, entry, rfl⟩ := done; exact ⟨k, entry, rfl⟩
  | movVxK x =>
    obtain ⟨k, answer, rfl⟩ | ⟨answer, rfl⟩ := movVxK_cases done
    · exact ⟨keyAnswer s, rfl, by simp [keyAnswer, answer]⟩
    · exact ⟨keyAnswer s, rfl, by simp [keyAnswer, answer]⟩
  | drw | loadRegs => obtain rfl := done; exact advance_pc _
  | movB | storeRegs => obtain ⟨_, rfl⟩ := done; exact advance_pc _
  | _ => cases done; exact advance_pc _

/-! ### The key-wait flag -/

/-- Settles O55: a step from a cleared flag that does not fault ran an instruction; MOV Vx,K sets the flag with either
answer, and no other instruction changes it. -/
theorem wasBlockingMeansKeyWait : Obligations.WasBlockingMeansKeyWait := by
  intro s t _ clear stepped quiet
  obtain ⟨_, ⟨_, _, rfl⟩ | ⟨_, _, _, _, rfl⟩ | ⟨w, i, fetched, decoded, executed⟩⟩ := instructionStep_cases stepped
  · simp at quiet
  · simp at quiet
  obtain ⟨_, _, _, _, _, blockingWriter, _⟩ := onlyListedInstructionsWriteTheRest i s t executed
  constructor
  · intro set
    obtain ⟨x, rfl⟩ := blockingWriter (by simp [set, clear])
    exact ⟨w, x, fetched, decoded⟩
  · rintro ⟨w', x, fetched', decoded'⟩
    obtain rfl : w = w' := by simpa [fetched] using fetched'
    obtain rfl : i = .movVxK x := by simpa [decoded] using decoded'
    obtain ⟨_, _, rfl⟩ | ⟨_, rfl⟩ := movVxK_cases executed <;> rfl

/-! ### The call stack -/

/-- What an instruction that completes does to the stack array and SP (R31 to R33). -/
theorem Completes.stack_cases (done : Completes i s t) :
    (∃ nnn, i = .call nnn ∧ s.sp < s.config.stackDepth ∧ t.stack = s.stack.set s.sp (s.pc + 2) ∧ t.sp = s.sp + 1) ∨
    (∃ k, i = .ret ∧ s.sp = k + 1 ∧ t.pc = stackEntry s k ∧ t.stack = s.stack ∧ t.sp = k) ∨
    ((∀ nnn, i ≠ .call nnn) ∧ i ≠ .ret ∧ t.stack = s.stack ∧ t.sp = s.sp) := by
  cases i with
  | call nnn => obtain ⟨room, rfl⟩ := done; exact .inl ⟨nnn, rfl, room, rfl, rfl⟩
  | ret => obtain ⟨k, entry, rfl⟩ := done; exact .inr (.inl ⟨k, rfl, entry, rfl, rfl, rfl⟩)
  | movVxK x => obtain ⟨_, _, rfl⟩ | ⟨_, rfl⟩ := movVxK_cases done <;> simp
  | drw | loadRegs => obtain rfl := done; simp [drawn]
  | skp | sknp | movB | storeRegs => obtain ⟨_, rfl⟩ := done; simp
  | _ => cases done; simp [writeResultAndFlag]

end Sys2Proof.Machine
end

section
/-! SUPPORT. The call stack: its valid entries and its stale ones. -/

namespace Sys2Proof.Machine

variable {i : Instr} {s t : State}

/-! ### The valid entries -/

/-- With one more entry counted, that one is on top of the others. -/
theorem frames_of_succ {k : Nat} (sp : s.sp = k + 1) (inside : k < s.stack.length) :
    frames s = stackEntry s k :: (s.stack.take k).reverse := by
  have top : stackEntry s k = s.stack[k] := List.getD_eq_getElem _ _ inside
  rw [frames, sp, top, List.take_succ_eq_append_getElem inside, List.reverse_append]
  rfl

/-- A push puts its word on top of the valid entries. -/
theorem frames_of_push {w : Word} (inside : s.sp < s.stack.length) (stack : t.stack = s.stack.set s.sp w)
    (sp : t.sp = s.sp + 1) : frames t = w :: frames s := by
  rw [frames_of_succ sp (by simpa [stack] using inside), stackEntry, stack, getD_set _ _ _ _ inside, if_pos rfl,
    List.take_set_of_le le_rfl, frames]

/-- Settles O28: of the instructions that complete CALL pushes, RET pops, and no other touches the stack. -/
theorem onlyCallAndRetChangeTheStack : Obligations.OnlyCallAndRetChangeTheStack := by
  intro i s t ⟨length, within⟩ _ h quiet
  obtain ⟨nnn, rfl, room, stack, sp⟩ | ⟨k, rfl, entry, pc, stack, sp⟩ | ⟨notCall, notRet, kept⟩ :=
    (exec_completes h quiet).stack_cases
  · exact frames_of_push (by omega) stack sp
  · rw [pc, frames, frames_of_succ entry (by omega), stack, sp]
  · cases i with
    | call nnn => exact absurd rfl (notCall nnn)
    | ret => exact absurd rfl notRet
    | _ => exact kept

/-! ### The stale entries -/

/-- The state with another stack array. -/
def withStack (st : List Word) (s : State) : State := { s with stack := st }

/-- What a meaning answers, with another stack array in its next state. -/
def answerWithStack (st : List Word) (r : Result) : Result :=
  match r with
  | .next t => .next (withStack st t)
  | .fault f => .fault f
  | .refused q => .refused q

variable {st : List Word}

/-- A range check does not look at the call stack. -/
theorem checked_withStack {a n : Nat} {rest rest' : State} (same : rest' = withStack st rest) :
    checked i a n (withStack st s) rest' = answerWithStack st (checked i a n s rest) := by
  subst same
  unfold checked
  rw [show (withStack st s).config = s.config from rfl]
  split <;> rfl

/-- Nor does a key skip. -/
theorem keySkip_withStack (x : Reg) (on : Bool) :
    keySkip i x on (withStack st s) = answerWithStack st (keySkip i x on s) := by
  unfold keySkip
  rw [show keyOperand? x (withStack st s) = keyOperand? x s from rfl]
  split <;> rfl

/-- No instruction but CALL and RET reads the stack array, and none but them writes it: each commutes with a change of it. -/
theorem exec_withStack (notCall : ∀ nnn, i ≠ .call nnn) (notRet : i ≠ .ret) :
    exec i (withStack st s) = answerWithStack st (exec i s) := by
  cases i with
  | call nnn => exact absurd rfl (notCall nnn)
  | ret => exact absurd rfl notRet
  | drw x y n =>
    simp only [exec, execDrw]
    split
    · rfl
    · exact checked_withStack rfl
  | skp x => exact keySkip_withStack _ _
  | sknp x => exact keySkip_withStack _ _
  | movB x => exact checked_withStack rfl
  | storeRegs x => exact checked_withStack rfl
  | loadRegs x => exact checked_withStack rfl
  | movVxK x =>
    simp only [exec, execMovVxK]
    rw [show (withStack st s).host = s.host from rfl]
    split <;> rfl
  | _ => rfl

/-- Whether it completes or faults, an instruction that is no CALL and no RET keeps the stack array and SP. -/
theorem exec_keeps_stack (notCall : ∀ nnn, i ≠ .call nnn) (notRet : i ≠ .ret) (h : exec i s = .next t) :
    t.stack = s.stack ∧ t.sp = s.sp := by
  obtain done | ⟨_, _, _, rfl⟩ := exec_cases h
  · obtain ⟨nnn, isCall, _⟩ | ⟨_, isRet, _⟩ | ⟨_, _, kept⟩ := done.stack_cases
    · exact absurd isCall (notCall nnn)
    · exact absurd isRet notRet
    · exact kept
  · exact ⟨rfl, rfl⟩

/-- The other state is this one with another stack array. -/
theorem AgreeButStale.exists_stack (agree : AgreeButStale s t) : ∃ st, t = withStack st s := ⟨_, agree.1⟩

/-- Two states with the stack arrays of two that agree, and otherwise one, agree where no further entry counts as valid. -/
theorem AgreeButStale.of_kept {s' : State} (agree : AgreeButStale s (withStack st s)) (stack : s'.stack = s.stack)
    (sp : s'.sp ≤ s.sp) : AgreeButStale s' (withStack st s') := by
  obtain ⟨-, length, valid⟩ := agree
  exact ⟨rfl, by rw [stack]; exact length, fun k hk => (valid k (by omega)).trans (stackEntry_congr stack k).symm⟩

/-- One word pushed onto two stacks that agree. -/
theorem AgreeButStale.of_push {s' : State} {w : Word} (agree : AgreeButStale s (withStack st s))
    (stack : s'.stack = s.stack.set s.sp w) (sp : s'.sp = s.sp + 1) :
    AgreeButStale s' (withStack (st.set s.sp w) s') := by
  obtain ⟨-, length, valid⟩ := agree
  change st.length = _ at length
  refine ⟨rfl, by simpa [stack, withStack] using length, fun k hk => ?_⟩
  simp only [stackEntry, withStack, stack, List.getD_eq_getElem?_getD, List.getElem?_set, length]
  split
  · rfl
  · simpa [stackEntry, withStack] using valid k (by omega)

/-- An instruction on two states that agree but for stale entries answers two next states that do. -/
theorem exec_agree {s' : State} (agree : AgreeButStale s t) (h : exec i s = .next s') :
    ∃ t', exec i t = .next t' ∧ AgreeButStale s' t' := by
  obtain ⟨st, rfl⟩ := agree.exists_stack
  obtain ⟨t', h'⟩ := exec_answers i (withStack st s)
  refine ⟨t', h', ?_⟩
  by_cases isCall : ∃ nnn, i = .call nnn
  · obtain ⟨nnn, rfl⟩ := isCall
    obtain ⟨room, rfl⟩ | ⟨full, rfl⟩ := call_cases h <;> obtain ⟨room', rfl⟩ | ⟨full', rfl⟩ := call_cases h'
    · exact agree.of_push rfl rfl
    · exact absurd room (Nat.not_lt.2 full')
    · exact absurd room' (Nat.not_lt.2 full)
    · exact agree.of_kept rfl le_rfl
  by_cases isRet : i = .ret
  · subst isRet
    obtain ⟨k, sp, rfl⟩ | ⟨sp, rfl⟩ := ret_cases h <;> obtain ⟨k', sp', rfl⟩ | ⟨sp', rfl⟩ := ret_cases h'
    · obtain rfl : k = k' := Nat.succ.inj (sp.symm.trans sp')
      rw [show stackEntry (withStack st s) k = stackEntry s k from agree.2.2 k (by omega)]
      exact agree.of_kept rfl (by simp [sp])
    · exact absurd (sp.symm.trans sp') (by simp)
    · exact absurd (sp.symm.trans sp') (by simp)
    · exact agree.of_kept rfl le_rfl
  · have notCall nnn (e : i = .call nnn) := isCall ⟨nnn, e⟩
    obtain ⟨stack, sp⟩ := exec_keeps_stack notCall isRet h
    rw [exec_withStack notCall isRet, h] at h'
    cases h'
    exact agree.of_kept stack sp.le

/-- So does an instruction step: it fetches the same word, or raises the same fault. -/
theorem instructionStep_agree {s' : State} (agree : AgreeButStale s t) (h : instructionStep s = .next s') :
    ∃ t', instructionStep t = .next t' ∧ AgreeButStale s' t' := by
  obtain ⟨quiet, outcome⟩ := instructionStep_cases h
  obtain ⟨st, rfl⟩ := agree.exists_stack
  have sameFetch : fetch (withStack st s) = fetch s := fetch_congr rfl rfl rfl
  obtain ⟨r, fetched, rfl⟩ | ⟨w, e, fetched, decoded, rfl⟩ | ⟨w, i, fetched, decoded, executed⟩ := outcome
  · exact ⟨_, instructionStep_of_fetch_error quiet (sameFetch.trans fetched), agree.of_kept rfl le_rfl⟩
  · exact ⟨_, instructionStep_of_invalid quiet (sameFetch.trans fetched) decoded, agree.of_kept rfl le_rfl⟩
  · rw [instructionStep_of_decoded (s := withStack st s) quiet (sameFetch.trans fetched) decoded]
    exact exec_agree agree executed

/-- Ticks do not look at the call stack. -/
theorem applyDueTicks_agree (agree : AgreeButStale s t) : AgreeButStale (applyDueTicks s) (applyDueTicks t) := by
  obtain ⟨st, rfl⟩ := agree.exists_stack
  have commutes : applyDueTicks (withStack st s) = withStack st (applyDueTicks s) := by
    unfold applyDueTicks
    rw [show (withStack st s).host = s.host from rfl]
    split <;> rfl
  rw [commutes]
  exact agree.of_kept (applyDueTicks_stack s) (applyDueTicks_sp s).le

/-- Settles O29: a step that answers a next state commutes with a change of stale entries, and one that stops does so by
the latched fault, which both states hold. -/
theorem staleEntriesAreUnobservable : Obligations.StaleEntriesAreUnobservable := by
  intro s t agree
  refine ⟨fun s' => instructionStep_agree (applyDueTicks_agree agree), fun f stopped => ?_⟩
  obtain ⟨st, rfl⟩ := agree.exists_stack
  obtain ⟨answers, stops, _⟩ := stepStopsExactlyOnALatchedFault s
  obtain ⟨_, stopsAlike, _⟩ := stepStopsExactlyOnALatchedFault (withStack st s)
  cases hf : s.fault with
  | none => obtain ⟨s', stepped⟩ := answers hf; rw [stepped] at stopped; cases stopped
  | some r => rw [← stopped, stops r hf]; exact stopsAlike r hf

end Sys2Proof.Machine
end

section
/-! SUPPORT. The invariant of the core: each part of it under an instruction, and the whole under a step. -/

namespace Sys2Proof.Machine

variable {i : Instr} {s t : State}

/-! ### What the invariant looks at -/

/-- V, I, the timers, was_blocking and the host's part are no part of the invariant. -/
theorem Inv.congr (inv : Inv s) (config : t.config = s.config) (mem : t.mem = s.mem) (stack : t.stack = s.stack)
    (sp : t.sp = s.sp) (fb : t.fb = s.fb) (pc : t.pc = s.pc) (fault : t.fault = s.fault) : Inv t where
  mem_wf := by rw [config, mem]; exact inv.mem_wf
  stack_shape := by rw [StackShape, config, stack, sp]; exact inv.stack_shape
  fb_shape := by rw [config, fb]; exact inv.fb_shape
  pc_bound := by rw [config, pc]; exact inv.pc_bound
  stack_entries := fun k hk => by
    rw [stackEntry_congr stack, config]
    exact inv.stack_entries k (sp ▸ hk)
  fault_pc := by rw [pc, fault]; exact inv.fault_pc
  fault_shape := by rw [config, fault]; exact inv.fault_shape

/-- Latching a record of PC that has the shape of R301 keeps the invariant. -/
theorem Inv.of_fault {r : FaultRecord} (inv : Inv s) (pc : r.pc = s.pc) (shape : RecordShape s.config.memSize r) :
    Inv { s with fault := some r } where
  mem_wf := inv.mem_wf
  stack_shape := inv.stack_shape
  fb_shape := inv.fb_shape
  pc_bound := inv.pc_bound
  stack_entries := inv.stack_entries
  fault_pc := fun _ e => Option.some.inj e ▸ pc
  fault_shape := fun _ e => Option.some.inj e ▸ shape

/-! ### Creation -/

/-- Creation with any parameters meets the invariant (R43). -/
theorem inv_created (c : Config) : Inv (State.created c) where
  mem_wf := wf_nil
  stack_shape := ⟨List.length_replicate, Nat.zero_le _⟩
  fb_shape := fbShape_cleared
  pc_bound := Nat.zero_le _
  stack_entries := fun _ hk => absurd hk (Nat.not_lt_zero _)
  fault_pc := nofun
  fault_shape := nofun

/-- Settles O13: reset is creation with R7's values. -/
theorem invariantHoldsAtReset : Obligations.InvariantHoldsAtReset := inv_created Config.standard

theorem stackEntry_created (c : Config) (k : Nat) : stackEntry (State.created c) k = 0 := by
  simp only [stackEntry, State.created, List.getD_eq_getElem?_getD, List.getElem?_replicate]
  split <;> rfl

/-- The registers of a created state. -/
theorem getV_created (c : Config) (r : Reg) : getV (State.created c) r = 0 := by
  simp [getV, State.created, Vector.get_eq_getElem]

/-- The font of a created state (R36, R43). -/
theorem byteAt_created_font (c : Config) (a : Nat) : byteAt (State.created c) (c.fontBase + a) = c.font.getD a 0 := by
  simp [byteAt, State.created, unlistedByte]

/-- The rest of a created state's memory. -/
theorem byteAt_created_outside (c : Config) (a : Nat) (outside : a < c.fontBase ∨ c.fontBase + c.font.length ≤ a) :
    byteAt (State.created c) a = 0 := by
  show unlistedByte c a = 0
  unfold unlistedByte
  split
  · rfl
  · exact List.getD_eq_default _ _ (by omega)

/-- Settles O16: creation's elements one by one, those that read as lists by their own lemmas. -/
theorem resetValues : Obligations.ResetValues :=
  ⟨rfl, by decide, fun c =>
    ⟨rfl, getV_created c, rfl, rfl, rfl, rfl, ⟨List.length_replicate, stackEntry_created c⟩, rfl, fbShape_cleared,
      pixel_cleared, fun a _ => byteAt_created_font c a, byteAt_created_outside c, rfl, rfl⟩⟩

/-! ### The parts of the invariant under an instruction -/

/-- An instruction that stores has checked its whole range (R53). -/
theorem exec_keeps_mem_wf (wf : Memory.wf s.config s.mem = true) (h : exec i s = .next t) :
    Memory.wf t.config t.mem = true := by
  rw [exec_config h]
  by_cases same : t.mem = s.mem
  · rw [same]; exact wf
  obtain ⟨_, _, _, _, memWriter, _⟩ := onlyListedInstructionsWriteTheRest i s t h
  obtain ⟨x, rfl⟩ | ⟨x, rfl⟩ := memWriter same
  · obtain ⟨fits, rfl⟩ | ⟨_, _, rfl⟩ := movB_cases h
    · exact wf_of_writeBytes wf fits
    · exact wf
  · obtain ⟨fits, rfl⟩ | ⟨_, _, _, rfl⟩ := storeRegs_cases h
    · exact wf_of_writeBytes wf (by simpa using fits)
    · exact wf

/-- CLS makes a screen, DRW flips pixels of one. -/
theorem exec_keeps_fbShape (shape : FbShape s.config s.fb) (h : exec i s = .next t) : FbShape t.config t.fb := by
  rw [exec_config h]
  by_cases same : t.fb = s.fb
  · rw [same]; exact shape
  obtain ⟨_, _, _, fbWriter, _⟩ := onlyListedInstructionsWriteTheRest i s t h
  obtain rfl | ⟨x, y, n, rfl⟩ := fbWriter same
  · cases h; exact fbShape_cleared
  · obtain rfl | ⟨_, _, rfl⟩ := drw_cases h
    · exact fbShape_blit _ _ _ shape
    · exact shape

/-- A push is made only where there is room (R32). -/
theorem Completes.keeps_stackShape (shape : StackShape s) (config : t.config = s.config) (done : Completes i s t) :
    StackShape t := by
  obtain ⟨length, within⟩ := shape
  obtain ⟨_, _, room, stack, sp⟩ | ⟨k, _, entry, _, stack, sp⟩ | ⟨_, _, stack, sp⟩ := done.stack_cases
  · exact ⟨by rw [stack, config, List.length_set, length], by rw [config]; omega⟩
  · exact ⟨by rw [stack, config, length], by rw [config]; omega⟩
  · exact ⟨by rw [stack, config, length], by rw [config]; omega⟩

/-- In a state that has fetched from PC the sums of R25 do not wrap (R27). -/
theorem toNat_pc_add {n : Nat} (inside : s.pc.toNat + 1 < s.config.memSize) (hn : n ≤ 4) :
    (s.pc + BitVec.ofNat 16 n).toNat = s.pc.toNat + n := by
  have fits := s.config.valid.pc_fits
  rw [BitVec.toNat_add, BitVec.toNat_ofNat]
  omega

/-- What is pushed is even and in the bounds of R27, and so the entries below it stay. -/
theorem Completes.keeps_entries (inv : Inv s) (even : s.pc.toNat % 2 = 0) (inside : s.pc.toNat + 1 < s.config.memSize)
    (done : Completes i s t) (k : Nat) (hk : k < t.sp) :
    (stackEntry t k).toNat % 2 = 0 ∧ (stackEntry t k).toNat ≤ s.config.memSize := by
  obtain ⟨length, within⟩ := inv.stack_shape
  obtain ⟨_, _, room, stack, sp⟩ | ⟨_, _, entry, _, stack, sp⟩ | ⟨_, _, stack, sp⟩ := done.stack_cases
  · have pushed : (s.pc + 2).toNat = s.pc.toNat + 2 := toNat_pc_add inside (by decide)
    rw [stackEntry, stack, getD_set _ _ _ _ (by omega)]
    split
    · omega
    · exact inv.stack_entries k (by omega)
  · rw [stackEntry_congr stack]; exact inv.stack_entries k (by omega)
  · rw [stackEntry_congr stack]; exact inv.stack_entries k (by omega)

/-- The bound of R27, kind of next PC by kind: a sum of a fetched PC, an address immediate with at most a byte added, or a
valid stack entry. -/
theorem exec_pc_bound (inv : Inv s) (quiet : s.fault = none) (inside : s.pc.toNat + 1 < s.config.memSize)
    (h : exec i s = .next t) (done : t.fault = none) : t.pc.toNat ≤ max 0x10FE (s.config.memSize + 2) := by
  have next := (nextPcByKind i s t quiet h).2 done
  have add2 : (s.pc + 2).toNat = s.pc.toNat + 2 := toNat_pc_add inside (by decide)
  have add4 : (s.pc + 4).toNat = s.pc.toNat + 4 := toNat_pc_add inside (by decide)
  cases i with
  | seImm | sneImm | seReg | sneReg => rw [next]; split <;> omega
  | skp | sknp => obtain ⟨_, _, _, next⟩ := next; rw [next]; split <;> omega
  | jmp nnn | call nnn => have := nnn.isLt; omega
  | jmpV0 nnn => have := nnn.isLt; have := (getV s 0).isLt; omega
  | ret => obtain ⟨k, sp, next⟩ := next; have := inv.stack_entries k (by omega); rw [next]; omega
  | movVxK x => obtain ⟨_, _, next⟩ := next; rw [next]; split <;> omega
  | _ => rw [next]; omega

/-! ### The invariant under a step -/

/-- An instruction fetched from memory keeps the invariant: each part of it if it completes, or by its record if it
faults. -/
theorem exec_inv (inv : Inv s) (quiet : s.fault = none) (even : s.pc.toNat % 2 = 0)
    (inside : s.pc.toNat + 1 < s.config.memSize) (h : exec i s = .next t) : Inv t := by
  obtain done | ⟨r, pc, shape, rfl⟩ := exec_cases h
  · have config := exec_config h
    have unfaulted : t.fault = none := done.fault.trans quiet
    exact {
      mem_wf := exec_keeps_mem_wf inv.mem_wf h
      stack_shape := done.keeps_stackShape inv.stack_shape config
      fb_shape := exec_keeps_fbShape inv.fb_shape h
      pc_bound := config ▸ exec_pc_bound inv quiet inside h unfaulted
      stack_entries := config ▸ done.keeps_entries inv even inside
      fault_pc := by simp [unfaulted]
      fault_shape := by simp [unfaulted] }
  · exact inv.of_fault pc (shape inside)

theorem instructionStep_inv (inv : Inv s) (h : instructionStep s = .next t) : Inv t := by
  obtain ⟨quiet, ⟨r, fetched, rfl⟩ | ⟨w, e, fetched, _, rfl⟩ | ⟨w, i, fetched, _, executed⟩⟩ := instructionStep_cases h
  · obtain ⟨pc, shape⟩ := recordShape_of_fetch_error fetched
    exact inv.of_fault pc shape
  · exact inv.of_fault rfl (recordShape_plain (by decide))
  · obtain ⟨even, inside, _⟩ := fetch_eq_ok.1 fetched
    exact exec_inv inv quiet even inside executed

/-- Settles O12: the ticks before an instruction step change no part of the invariant, and the instruction step keeps it. -/
theorem invariantKeptByEveryStep : Obligations.InvariantKeptByEveryStep := fun s _ inv stepped =>
  have ticked : Inv (applyDueTicks s) := inv.congr (applyDueTicks_config s) (applyDueTicks_mem s) (applyDueTicks_stack s)
    (applyDueTicks_sp s) (applyDueTicks_fb s) (applyDueTicks_pc s) (applyDueTicks_fault s)
  instructionStep_inv ticked stepped

end Sys2Proof.Machine
end

section
/-! SUPPORT. The framebuffer in bytes (R35). -/

namespace Sys2Proof.Machine

variable {c : Config} {fb : Framebuffer}

/-- A bit of a byte is the pixel it stands for, the most significant one the leftmost (R35, decision D13). -/
theorem getLsbD_fbByte (k bit : Nat) (hb : bit < 8) :
    (fbByte c fb k).getLsbD (7 - bit) = pixel fb (8 * (k % (c.dispW / 8)) + bit) (k / (c.dispW / 8)) := by
  rw [fbByte, BitVec.getLsbD_ofFnBE, dif_pos (by omega)]
  congr 2
  simp only [Fin.val_rev]
  omega

theorem getD_fbImage {k : Nat} (hk : k < c.fbBytes) : (fbImage c fb).getD k 0 = fbByte c fb k := by
  simp [fbImage, hk]

/-- Settles O22: byte y · (DISP_W / 8) + x div 8 is one of the image's, its number divided by the bytes of a row gives back
row y and byte x div 8 in it. -/
theorem framebufferPacking : Obligations.FramebufferPacking := by
  refine ⟨by decide, fun c fb => ⟨by simp [fbImage], c.valid.fbBytes, fun px py hx hy => ?_⟩⟩
  obtain ⟨rowBytes, width⟩ : 8 ∣ c.dispW := Nat.dvd_of_mod_eq_zero c.valid.dispW_bytes
  have perRow : c.dispW / 8 = rowBytes := by omega
  have inRow : px / 8 < rowBytes := by omega
  have image : c.fbBytes = c.dispH * rowBytes := by
    rw [c.valid.fbBytes, width, Nat.mul_assoc, Nat.mul_div_cancel_left _ (by decide), Nat.mul_comm]
  have inImage : py * rowBytes + px / 8 < c.fbBytes := by
    calc py * rowBytes + px / 8 < (py + 1) * rowBytes := by rw [Nat.succ_mul]; omega
      _ ≤ c.fbBytes := image ▸ Nat.mul_le_mul_right _ hy
  have row : (py * rowBytes + px / 8) / rowBytes = py := by
    rw [Nat.mul_comm, Nat.mul_add_div (by omega), Nat.div_eq_of_lt inRow, Nat.add_zero]
  have byte : (py * rowBytes + px / 8) % rowBytes = px / 8 := by
    rw [Nat.mul_comm, Nat.mul_add_mod, Nat.mod_eq_of_lt inRow]
  rw [perRow, getD_fbImage inImage, getLsbD_fbByte _ _ (Nat.mod_lt _ (by decide)), perRow, row, byte, Nat.div_add_mod]

end Sys2Proof.Machine
end

section
/-! SUPPORT. The address space: what an instruction that faults on it leaves, its one canonical form, and a store that the
next fetch reads. -/

namespace Sys2Proof.Machine

variable {c : Config} {s : State}

/-! ### Precise faults -/

/-- Settles O11: an instruction that completes leaves the latch as it is, and each one's other outcome is a record of pc0
and its own word, of the kind it has. -/
theorem faultsArePrecise : Obligations.FaultsArePrecise := by
  intro i s t quiet h
  have unfaulted (done : Completes i s t) : t.fault = none := done.fault.trans quiet
  cases i with
  | ret => exact (ret_cases h).imp unfaulted fun ⟨_, e⟩ => ⟨_, e, rfl, rfl, rfl⟩
  | call nnn => exact (call_cases h).imp unfaulted fun ⟨_, e⟩ => ⟨_, e, rfl, rfl, rfl⟩
  | drw x y n => exact (drw_cases h).imp unfaulted fun ⟨_, _, e⟩ => ⟨_, e, rfl, rfl, rfl⟩
  | movB x => exact (movB_cases h).imp unfaulted fun ⟨_, _, e⟩ => ⟨_, e, rfl, rfl, rfl⟩
  | storeRegs x => exact (storeRegs_cases h).imp unfaulted fun ⟨_, _, _, e⟩ => ⟨_, e, rfl, rfl, rfl⟩
  | loadRegs x =>
    exact (loadRegs_cases h).imp (fun ⟨_, done⟩ => unfaulted done) fun ⟨_, _, _, e⟩ => ⟨_, e, rfl, rfl, rfl⟩
  | skp x | sknp x =>
    exact (keySkip_cases h).imp (fun ⟨k, _, done⟩ => unfaulted ⟨k, done⟩) fun ⟨_, e⟩ => ⟨_, e, rfl, rfl, rfl⟩
  | _ => exact .inl (unfaulted h)

/-! ### The canonical form -/

/-- The first cell of a canonical memory is a byte its address does not read as unlisted. -/
theorem readByte_first_ne_unlisted {lo k : Nat} {b : Byte} {m : Memory} (wf : wfFrom c lo ((k, b) :: m) = true) :
    readByte c ((k, b) :: m) k ≠ unlistedByte c k := by
  obtain ⟨_, _, changed, _⟩ := (wfFrom_cons ..).1 wf
  simpa [readByte_cons] using changed

/-- A canonical memory that does not read as unlisted at an address has a first cell, and not above it. -/
theorem exists_first_cell_le {lo a : Nat} {m : Memory} (wf : wfFrom c lo m = true)
    (listed : readByte c m a ≠ unlistedByte c a) : ∃ k b rest, m = (k, b) :: rest ∧ k ≤ a := by
  cases m with
  | nil => exact absurd rfl listed
  | cons cell rest =>
    obtain ⟨k, b⟩ := cell
    refine ⟨k, b, rest, rfl, Nat.le_of_not_lt fun below => listed ?_⟩
    have fromFirst : wfFrom c k ((k, b) :: rest) = true :=
      (wfFrom_cons ..).2 ⟨le_rfl, ((wfFrom_cons ..).1 wf).2⟩
    exact readByte_below fromFirst below

/-- What two memories with one first address read alike, canonical after it, their other cells read alike. -/
theorem readByte_eq_of_cons {k : Nat} {b b' : Byte} {m m' : Memory} (wf : wfFrom c (k + 1) m = true)
    (wf' : wfFrom c (k + 1) m' = true) (same : ∀ a, readByte c ((k, b) :: m) a = readByte c ((k, b') :: m') a) (a : Nat) :
    readByte c m a = readByte c m' a := by
  by_cases first : k = a
  · rw [readByte_below wf (by omega), readByte_below wf' (by omega)]
  · simpa [readByte_cons, first] using same a

/-- Canonical memories that read alike are one list of cells: neither's first address is above the other's, and the bytes
there and the cells after them agree. -/
theorem eq_of_readByte_eq {lo : Nat} {m m' : Memory} (wf : wfFrom c lo m = true) (wf' : wfFrom c lo m' = true)
    (same : ∀ a, readByte c m a = readByte c m' a) : m = m' := by
  induction m generalizing lo m' with
  | nil =>
    cases m' with
    | nil => rfl
    | cons cell rest' => exact absurd (same cell.1).symm (readByte_first_ne_unlisted wf')
  | cons cell rest ih =>
    obtain ⟨k, b⟩ := cell
    obtain ⟨k', b', rest', rfl, below⟩ := exists_first_cell_le wf' (same k ▸ readByte_first_ne_unlisted wf)
    obtain ⟨_, _, _, first, above⟩ := exists_first_cell_le wf (same k' ▸ readByte_first_ne_unlisted wf')
    cases first
    obtain rfl : k = k' := Nat.le_antisymm above below
    obtain rfl : b = b' := by simpa [readByte_cons] using same k
    obtain ⟨_, _, _, wfRest⟩ := (wfFrom_cons ..).1 wf
    obtain ⟨_, _, _, wfRest'⟩ := (wfFrom_cons ..).1 wf'
    rw [ih wfRest wfRest' (readByte_eq_of_cons wfRest wfRest' same)]

/-- Settles O40: what a write does to reads, to the canonical form, and why that form is the only one. -/
theorem memoryHoldsWhatWasWritten : Obligations.MemoryHoldsWhatWasWritten := fun _ =>
  ⟨readByte_writeByte_eq, fun _ _ v wf inside => wf_of_writeByte v wf inside, fun _ _ => eq_of_readByte_eq⟩

/-! ### A store that is fetched next -/

/-- Byte k of what MOV [I],Vx stores is Vk (R175). -/
theorem getD_registersUpTo {x r : Reg} (h : r ≤ x) : (registersUpTo x s).getD r 0 = getV s r := by
  have upTo : r.val < x + 1 := Nat.lt_succ_of_le h
  simp [registersUpTo, getV, Vector.get_eq_getElem, upTo]

/-- What a store of V0 to Vx leaves where it stored Vr (R175). -/
theorem byteAt_storeBytes_registersUpTo {x r : Reg} (a : Nat) (h : r ≤ x) :
    byteAt (storeBytes a (registersUpTo x s) s) (a + r) = getV s r := by
  have upTo : r.val < x + 1 := Nat.lt_succ_of_le h
  rw [byteAt_storeBytes_at _ _ _ _ (by simpa using upTo), getD_registersUpTo h]

/-- Settles O41: the store does not fault, PC goes to the even address I, and V0 and V1 stand there and after it. -/
theorem storedBytesAreFetchedNext : Obligations.StoredBytesAreFetchedNext := by
  intro x s t two _ even index fits h
  obtain ⟨_, rfl⟩ | ⟨overrun, _⟩ := storeRegs_cases h
  case inr => simp only [indexAddress] at overrun; omega
  have next : (s.pc + 2).toNat = s.i.toNat := (toNat_pc_add (by omega) (by decide)).trans index.symm
  have first : byteAt (storeBytes s.i.toNat (registersUpTo x s) s) s.i.toNat = getV s 0 :=
    byteAt_storeBytes_registersUpTo (r := 0) s.i.toNat (Fin.zero_le x)
  have second : byteAt (storeBytes s.i.toNat (registersUpTo x s) s) (s.i.toNat + 1) = getV s 1 :=
    byteAt_storeBytes_registersUpTo (r := 1) s.i.toNat two
  rw [fetch_eq_ok, advance_pc, storeBytes_pc, next]
  refine ⟨by omega, by simp only [advance_config, storeBytes_config]; omega, ?_⟩
  simp only [fetchWord, wordOfBytes, byteAt_advance, indexAddress, first, second]

end Sys2Proof.Machine
end

section
/-! SUPPORT. The opcode table: which rows a word can match, and that decoding answers the one it matches (R74, R75). -/

namespace Sys2Proof

/-- Two rows differ in a bit that both of them fix, so their bases differ there. -/
def Row.Conflict (r r' : Row) : Prop := r.base &&& r'.mask ≠ r'.base &&& r.mask

theorem Row.matches_iff {r : Row} {w : Word} : r.matches w = true ↔ w &&& r.mask = r.base := beq_iff_eq

/-- No word matches two rows that conflict: its bits that both fix would be those of both bases. -/
theorem Row.Conflict.not_both {r r' : Row} (conflict : r.Conflict r') {w : Word} (h : r.matches w = true)
    (h' : r'.matches w = true) : False :=
  conflict <| by rw [← matches_iff.1 h, ← matches_iff.1 h', BitVec.and_assoc, BitVec.and_assoc, BitVec.and_comm r.mask]

/-- Any two of the 34 rows conflict. -/
theorem opcodeTable_conflict : opcodeTable.Pairwise Row.Conflict := by
  unfold Row.Conflict
  decide

/-- R75: no word matches two rows. -/
theorem length_filter_matches_le_one (w : Word) : (opcodeTable.filter fun r => r.matches w).length ≤ 1 := by
  have pairs : (opcodeTable.filter fun r => r.matches w).Pairwise fun _ _ => False :=
    List.pairwise_filter.2 (opcodeTable_conflict.imp fun conflict h h' => conflict.not_both h h')
  by_contra two
  exact List.pairwise_iff_getElem.1 pairs 0 1 (by omega) (by omega) Nat.zero_lt_one

/-- The first row that a word matches is the only one (R74, R75). -/
theorem find?_matches {r : Row} {w : Word} (inTable : r ∈ opcodeTable) (h : r.matches w = true) :
    (opcodeTable.find? fun r => r.matches w) = some r := by
  have found : r ∈ opcodeTable.filter fun r => r.matches w := List.mem_filter.2 ⟨inTable, h⟩
  obtain ⟨first, only⟩ :=
    List.length_eq_one_iff.1 (le_antisymm (length_filter_matches_le_one w) (List.length_pos_of_mem found))
  obtain rfl : r = first := by simpa [only] using found
  rw [← List.head?_filter, only, List.head?_cons]

/-- A word in a row of the table decodes to what the row makes of it. -/
theorem decode_of_matches {r : Row} {w : Word} (inTable : r ∈ opcodeTable) (h : r.matches w = true) :
    decode w = .ok (r.build w) := by
  rw [decode, find?_matches inTable h]

/-- A word in no row of the table is reported as invalid. -/
theorem decode_of_no_match {w : Word} (none : ∀ r ∈ opcodeTable, r.matches w = false) :
    decode w = .error (.invalidOpcode w) := by
  rw [decode, List.find?_eq_none.2 fun r inTable => by simp [none r inTable]]

/-- What decoding can answer: what the row makes of a word that is in one, and the invalid opcode for a word in none. -/
theorem decode_cases (w : Word) : (∃ r ∈ opcodeTable, r.matches w = true ∧ decode w = .ok (r.build w)) ∨
    (∀ r ∈ opcodeTable, r.matches w = false) ∧ decode w = .error (.invalidOpcode w) := by
  by_cases h : ∃ r ∈ opcodeTable, r.matches w = true
  · obtain ⟨r, inTable, matched⟩ := h
    exact .inl ⟨r, inTable, matched, decode_of_matches inTable matched⟩
  · simp only [not_exists, not_and, Bool.not_eq_true] at h
    exact .inr ⟨h, decode_of_no_match h⟩

/-- The words that are reported as invalid are those in no row (R86). -/
theorem decode_eq_invalid_iff {w : Word} :
    decode w = .error (.invalidOpcode w) ↔ ∀ r ∈ opcodeTable, r.matches w = false := by
  obtain ⟨r, inTable, matched, decoded⟩ | ⟨none, decoded⟩ := decode_cases w
  · simp only [decoded, reduceCtorEq, false_iff, not_forall]
    exact ⟨r, inTable, by simp [matched]⟩
  · exact iff_of_true decoded none

/-- Settles O3: every two rows conflict, so the row that decoding finds first is the only one. -/
theorem decodeAnswersTheOnlyMatchingRow : Obligations.DecodeAnswersTheOnlyMatchingRow :=
  ⟨rfl, fun w => ⟨length_filter_matches_le_one w, fun _ => decode_of_matches, decode_of_no_match⟩⟩

/-! ### Decoding after encoding (R98) -/

/-- Every instruction's word is in the instruction's own row. -/
theorem encode_in_ownRow (i : Instr) : Laws.OwnRow.Statement i :=
  match i with
  | .cls => Laws.OwnRow.cls
  | .ret => Laws.OwnRow.ret
  | .jmp nnn => Laws.OwnRow.jmp nnn
  | .call nnn => Laws.OwnRow.call nnn
  | .seImm x kk => Laws.OwnRow.seImm x kk
  | .sneImm x kk => Laws.OwnRow.sneImm x kk
  | .seReg x y => Laws.OwnRow.seReg x y
  | .movImm x kk => Laws.OwnRow.movImm x kk
  | .addImm x kk => Laws.OwnRow.addImm x kk
  | .movReg x y => Laws.OwnRow.movReg x y
  | .orReg x y => Laws.OwnRow.orReg x y
  | .andReg x y => Laws.OwnRow.andReg x y
  | .xorReg x y => Laws.OwnRow.xorReg x y
  | .addReg x y => Laws.OwnRow.addReg x y
  | .sub x y => Laws.OwnRow.sub x y
  | .shr x y => Laws.OwnRow.shr x y
  | .subn x y => Laws.OwnRow.subn x y
  | .shl x y => Laws.OwnRow.shl x y
  | .sneReg x y => Laws.OwnRow.sneReg x y
  | .movI nnn => Laws.OwnRow.movI nnn
  | .jmpV0 nnn => Laws.OwnRow.jmpV0 nnn
  | .rnd x kk => Laws.OwnRow.rnd x kk
  | .drw x y n => Laws.OwnRow.drw x y n
  | .skp x => Laws.OwnRow.skp x
  | .sknp x => Laws.OwnRow.sknp x
  | .movVxDT x => Laws.OwnRow.movVxDT x
  | .movVxK x => Laws.OwnRow.movVxK x
  | .movDTVx x => Laws.OwnRow.movDTVx x
  | .movSTVx x => Laws.OwnRow.movSTVx x
  | .addI x => Laws.OwnRow.addI x
  | .movF x => Laws.OwnRow.movF x
  | .movB x => Laws.OwnRow.movB x
  | .storeRegs x => Laws.OwnRow.storeRegs x
  | .loadRegs x => Laws.OwnRow.loadRegs x

@[simp] theorem decode_encode (i : Instr) : decode (encode i) = .ok i := by
  obtain ⟨r, atOwnPlace, matched, built⟩ := encode_in_ownRow i
  rw [decode_of_matches (List.mem_of_getElem? atOwnPlace) matched, built]

/-- A word as the opcode table numbers its bits is decoded as memory holds it, its high byte first (R55). -/
theorem decodeTableWord_toNat (w : Word) : decodeTableWord 16 w.toNat = (decode w).toOption := by
  have word : BitVec.ofNat 16 (w.toNat % 2 ^ 16) = w := by
    rw [Nat.mod_eq_of_lt w.isLt, BitVec.ofNat_toNat, BitVec.setWidth_eq]
  simp only [decodeTableWord, decodeBytes, word, wordOfBytes_hi_lo]
  cases decode w <;> rfl

/-- Settles O1: the word of every instruction is in the instruction's own row, which is the only one it is in. -/
theorem decodeOfEncodeIsIdentity : Obligations.DecodeOfEncodeIsIdentity := fun i =>
  ⟨i.wellFormed_all, decode_encode i, by rw [decodeTableWord_toNat, decode_encode]; rfl⟩

end Sys2Proof
end

section
/-! SUPPORT. The operand fields of a word: the bits each takes, and the word put together from its fields (R71, R72). -/

namespace Sys2Proof

/-- A field's mask has the field's bits (R71). -/
theorem Field.getLsbD_mask {f : Field} (ordered : f.lo ≤ f.hi) {k : Nat} (inWord : k < 16) :
    f.mask.getLsbD k = decide (f.lo ≤ k ∧ k ≤ f.hi) := by
  have ones : 2 ^ (f.hi + 1) - 2 ^ f.lo = (2 ^ (f.hi + 1 - f.lo) - 1) <<< f.lo := by
    rw [Nat.shiftLeft_eq, Nat.sub_mul, ← pow_add, Nat.one_mul, Nat.sub_add_cancel (by omega)]
  rw [mask, ones, BitVec.getLsbD_ofNat, Nat.testBit_shiftLeft, Nat.testBit_two_pow_sub_one]
  grind

/-- The bits of a field, taken out of a word and put back in their place, are the word's bits there (R98). -/
theorem place_extractLsb' (f : Field) (ordered : f.lo ≤ f.hi) (w : Word) :
    place f (w.extractLsb' f.lo (f.hi + 1 - f.lo)).toNat = w &&& f.mask := by
  apply BitVec.eq_of_getLsbD_eq
  intro k inWord
  rw [place, BitVec.getLsbD_shiftLeft, BitVec.getLsbD_ofNat, BitVec.testBit_toNat, BitVec.getLsbD_extractLsb',
    BitVec.getLsbD_and, Field.getLsbD_mask ordered inWord]
  grind

theorem place_xOf (w : Word) : place .x (xOf w) = w &&& Field.mask .x := place_extractLsb' .x (by decide) w
theorem place_yOf (w : Word) : place .y (yOf w) = w &&& Field.mask .y := place_extractLsb' .y (by decide) w
theorem place_nOf (w : Word) : place .n (nOf w) = w &&& Field.mask .n := place_extractLsb' .n (by decide) w
theorem place_kkOf (w : Word) : place .kk (kkOf w).toNat = w &&& Field.mask .kk := place_extractLsb' .kk (by decide) w
theorem place_nnnOf (w : Word) : place .nnn (nnnOf w).toNat = w &&& Field.mask .nnn :=
  place_extractLsb' .nnn (by decide) w

/-- Encoding what the row makes of a word in it gives the word back. -/
def Row.WritesBack (r : Row) : Prop := ∀ w, r.matches w = true → encode (r.build w) = w

/-- It is enough that the encoding is the row's base and the word's operand bits: together they are the word. -/
theorem Row.writesBack_of_encode {r : Row} (written : ∀ w, encode (r.build w) = r.base ||| w &&& ~~~ r.mask) :
    r.WritesBack := by
  intro w matched
  rw [written, ← matches_iff.1 matched, ← BitVec.and_or_distrib_left, BitVec.or_not_self, BitVec.and_allOnes]

section
variable {base : Word}

theorem not_mask_rowNNN (form : Addr12 → Instr) : ~~~ (rowNNN base form).mask = Field.mask .nnn := by
  simp [Row.mask, rowNNN]
theorem not_mask_rowXKK (form : Reg → Byte → Instr) : ~~~ (rowXKK base form).mask = Field.mask .x ||| Field.mask .kk := by
  simp [Row.mask, rowXKK]
theorem not_mask_rowXY (form : Reg → Reg → Instr) : ~~~ (rowXY base form).mask = Field.mask .x ||| Field.mask .y := by
  simp [Row.mask, rowXY]
theorem not_mask_rowXYN (form : Reg → Reg → Rows → Instr) :
    ~~~ (rowXYN base form).mask = Field.mask .x ||| Field.mask .y ||| Field.mask .n := by
  simp [Row.mask, rowXYN]
theorem not_mask_rowXFF (form : Reg → Instr) : ~~~ (rowXFF base form).mask = Field.mask .x := by
  simp [Row.mask, rowXFF]

theorem writesBack_FIX {i : Instr} (written : encode i = base) : (rowFIX base i).WritesBack :=
  Row.writesBack_of_encode fun _ => written.trans (by simp [Row.mask, rowFIX])

theorem writesBack_NNN {form : Addr12 → Instr} (written : ∀ nnn, encode (form nnn) = encodeNNN base nnn) :
    (rowNNN base form).WritesBack :=
  Row.writesBack_of_encode fun w => (written (nnnOf w)).trans (by rw [not_mask_rowNNN, encodeNNN, place_nnnOf]; rfl)

theorem writesBack_XKK {form : Reg → Byte → Instr} (written : ∀ x kk, encode (form x kk) = encodeXKK base x kk) :
    (rowXKK base form).WritesBack :=
  Row.writesBack_of_encode fun w => (written (xOf w) (kkOf w)).trans <| by
    rw [not_mask_rowXKK, encodeXKK, place_xOf, place_kkOf, BitVec.or_assoc, ← BitVec.and_or_distrib_left]; rfl

theorem writesBack_XY {form : Reg → Reg → Instr} (written : ∀ x y, encode (form x y) = encodeXY base x y) :
    (rowXY base form).WritesBack :=
  Row.writesBack_of_encode fun w => (written (xOf w) (yOf w)).trans <| by
    rw [not_mask_rowXY, encodeXY, place_xOf, place_yOf, BitVec.or_assoc, ← BitVec.and_or_distrib_left]; rfl

theorem writesBack_XYN {form : Reg → Reg → Rows → Instr} (written : ∀ x y n, encode (form x y n) = encodeXYN base x y n) :
    (rowXYN base form).WritesBack :=
  Row.writesBack_of_encode fun w => (written (xOf w) (yOf w) (nOf w)).trans <| by
    rw [not_mask_rowXYN, encodeXYN, place_xOf, place_yOf, place_nOf, BitVec.or_assoc, BitVec.or_assoc,
      ← BitVec.and_or_distrib_left, ← BitVec.and_or_distrib_left, ← BitVec.or_assoc]; rfl

theorem writesBack_XFF {form : Reg → Instr} (written : ∀ x, encode (form x) = encodeXFF base x) :
    (rowXFF base form).WritesBack :=
  Row.writesBack_of_encode fun w => (written (xOf w)).trans (by rw [not_mask_rowXFF, encodeXFF, place_xOf]; rfl)

end

theorem forall_mem_opcodeTable {P : Row → Prop} : (∀ r ∈ opcodeTable, P r) ↔
    (∀ r ∈ rowsMajor0to7, P r) ∧ (∀ r ∈ rowsMajor8, P r) ∧ (∀ r ∈ rowsMajor9toE, P r) ∧ ∀ r ∈ rowsMajorF, P r := by
  simp only [opcodeTable, List.forall_mem_append, and_assoc]

/-- Every row of the table writes its words back: encoder and table have one base for each instruction (R85). -/
theorem opcodeTable_writesBack : ∀ r ∈ opcodeTable, r.WritesBack := by
  simp only [forall_mem_opcodeTable, rowsMajor0to7, rowsMajor8, rowsMajor9toE, rowsMajorF, List.forall_mem_cons,
    List.not_mem_nil, false_imp_iff, implies_true, and_true]
  refine ⟨⟨writesBack_FIX ?_, writesBack_FIX ?_, writesBack_NNN ?_, writesBack_NNN ?_, writesBack_XKK ?_,
      writesBack_XKK ?_, writesBack_XY ?_, writesBack_XKK ?_, writesBack_XKK ?_⟩,
    ⟨writesBack_XY ?_, writesBack_XY ?_, writesBack_XY ?_, writesBack_XY ?_, writesBack_XY ?_, writesBack_XY ?_,
      writesBack_XY ?_, writesBack_XY ?_, writesBack_XY ?_⟩,
    ⟨writesBack_XY ?_, writesBack_NNN ?_, writesBack_NNN ?_, writesBack_XKK ?_, writesBack_XYN ?_, writesBack_XFF ?_,
      writesBack_XFF ?_⟩,
    writesBack_XFF ?_, writesBack_XFF ?_, writesBack_XFF ?_, writesBack_XFF ?_, writesBack_XFF ?_, writesBack_XFF ?_,
      writesBack_XFF ?_, writesBack_XFF ?_, writesBack_XFF ?_⟩
  all_goals intros; rfl

/-- Settles O2: a word that decodes is in a row, and the row writes it back; any other is reported as invalid. -/
theorem encodeOfDecodeIsIdentity : Obligations.EncodeOfDecodeIsIdentity := by
  intro w
  obtain ⟨r, inTable, matched, decoded⟩ | ⟨_, decoded⟩ := decode_cases w
  · rw [decoded]
    exact ⟨fun _ made => Except.ok.inj made ▸ opcodeTable_writesBack r inTable w matched, nofun⟩
  · rw [decoded]
    exact ⟨nofun, fun _ reported => (Except.error.inj reported).symm⟩

end Sys2Proof
end

section
/-! SUPPORT. Which words match a row, by the word's digits, and the words that match none (R77 to R84, R86). -/

namespace Sys2Proof

/-- The fixed bits of a row whose operands take some of the low 12 bits: the major nibble, and below the operands the low
`k` bits. -/
theorem toNat_and_major_or_low (w : Word) {k : Nat} (below : k ≤ 12) :
    (w &&& BitVec.ofNat 16 (15 * 2 ^ 12 + (2 ^ k - 1))).toNat = w.toNat / 2 ^ 12 * 2 ^ 12 + w.toNat % 2 ^ k := by
  have ones : 2 ^ k - 1 < 2 ^ 12 := by
    have := Nat.pow_le_pow_right (n := 2) (by decide) below
    omega
  have highMask : (15 * 2 ^ 12 + (2 ^ k - 1)) / 2 ^ 12 = 2 ^ 4 - 1 := by omega
  have lowMask : (15 * 2 ^ 12 + (2 ^ k - 1)) % 2 ^ 12 = 2 ^ k - 1 := by omega
  have high : (w.toNat &&& (15 * 2 ^ 12 + (2 ^ k - 1))) / 2 ^ 12 = w.toNat / 2 ^ 12 := by
    rw [Nat.and_div_two_pow, highMask, Nat.and_two_pow_sub_one_eq_mod]
    omega
  have low : (w.toNat &&& (15 * 2 ^ 12 + (2 ^ k - 1))) % 2 ^ 12 = w.toNat % 2 ^ k := by
    rw [Nat.and_mod_two_pow, lowMask, Nat.and_two_pow_sub_one_eq_mod, Nat.mod_mod_of_dvd _ (Nat.pow_dvd_pow 2 below)]
  rw [BitVec.toNat_and, BitVec.toNat_ofNat, Nat.mod_eq_of_lt (by omega), ← Nat.div_add_mod' (_ &&& _) (2 ^ 12), high, low]

/-- A word is in a row when its major nibble and the low bits that the row fixes are the base's. -/
theorem Row.matches_iff_digits {r : Row} {k : Nat} (below : k ≤ 12)
    (mask : ~~~ r.mask = ~~~ BitVec.ofNat 16 (15 * 2 ^ 12 + (2 ^ k - 1))) (w : Word) :
    r.matches w = true ↔ w.toNat / 2 ^ 12 = r.base.toNat / 2 ^ 12 ∧ w.toNat % 2 ^ k = r.base.toNat % 2 ^ 12 := by
  have low : w.toNat % 2 ^ k < 2 ^ 12 := (Nat.mod_lt _ (by positivity)).trans_le (Nat.pow_le_pow_right (by decide) below)
  rw [matches_iff, ← BitVec.toNat_inj, BitVec.not_inj.1 mask, toNat_and_major_or_low w below]
  omega

section
variable {base w : Word}

theorem matches_rowFIX {i : Instr} : (rowFIX base i).matches w = true ↔ w.toNat = base.toNat := by
  have mask : (rowFIX base i).mask = BitVec.allOnes 16 := by simp [Row.mask, rowFIX]
  rw [Row.matches_iff, mask, BitVec.and_allOnes, BitVec.toNat_inj, rowFIX]

theorem matches_rowNNN {form : Addr12 → Instr} :
    (rowNNN base form).matches w = true ↔ w.toNat / 4096 = base.toNat / 4096 ∧ w.toNat % 1 = base.toNat % 4096 :=
  Row.matches_iff_digits (k := 0) (by decide) (by rw [not_mask_rowNNN]; decide) w

theorem matches_rowXKK {form : Reg → Byte → Instr} :
    (rowXKK base form).matches w = true ↔ w.toNat / 4096 = base.toNat / 4096 ∧ w.toNat % 1 = base.toNat % 4096 :=
  Row.matches_iff_digits (k := 0) (by decide) (by rw [not_mask_rowXKK]; decide) w

theorem matches_rowXYN {form : Reg → Reg → Rows → Instr} :
    (rowXYN base form).matches w = true ↔ w.toNat / 4096 = base.toNat / 4096 ∧ w.toNat % 1 = base.toNat % 4096 :=
  Row.matches_iff_digits (k := 0) (by decide) (by rw [not_mask_rowXYN]; decide) w

theorem matches_rowXY {form : Reg → Reg → Instr} :
    (rowXY base form).matches w = true ↔ w.toNat / 4096 = base.toNat / 4096 ∧ w.toNat % 16 = base.toNat % 4096 :=
  Row.matches_iff_digits (k := 4) (by decide) (by rw [not_mask_rowXY]; decide) w

theorem matches_rowXFF {form : Reg → Instr} :
    (rowXFF base form).matches w = true ↔ w.toNat / 4096 = base.toNat / 4096 ∧ w.toNat % 256 = base.toNat % 4096 :=
  Row.matches_iff_digits (k := 8) (by decide) (by rw [not_mask_rowXFF]; decide) w

/-- The words in no row with a major nibble of 0 to 7 (R77 to R80). -/
theorem noMatch_rowsMajor0to7 : (∀ r ∈ rowsMajor0to7, r.matches w = false) ↔
    w.toNat / 4096 = 0 ∧ w.toNat ≠ 0xE0 ∧ w.toNat ≠ 0xEE ∨
      w.toNat / 4096 = 5 ∧ w.toNat % 16 ≠ 0 ∨ 8 ≤ w.toNat / 4096 := by
  simp only [rowsMajor0to7, List.mem_cons, List.not_mem_nil, or_false, forall_eq_or_imp, forall_eq, ← Bool.not_eq_true,
    matches_rowFIX, matches_rowNNN, matches_rowXKK, matches_rowXY, BitVec.reduceToNat, Nat.reduceDiv, Nat.reduceMod]
  omega

/-- The words in no row of the register-register group (R81). -/
theorem noMatch_rowsMajor8 : (∀ r ∈ rowsMajor8, r.matches w = false) ↔
    w.toNat / 4096 = 8 → w.toNat % 16 ∈ [8, 9, 10, 11, 12, 13, 15] := by
  simp only [rowsMajor8, List.mem_cons, List.not_mem_nil, or_false, forall_eq_or_imp, forall_eq, ← Bool.not_eq_true,
    matches_rowXY, BitVec.reduceToNat, Nat.reduceDiv, Nat.reduceMod]
  omega

/-- The words in no row with a major nibble of 9 to E (R82, R83). -/
theorem noMatch_rowsMajor9toE : (∀ r ∈ rowsMajor9toE, r.matches w = false) ↔
    w.toNat / 4096 < 9 ∨ w.toNat / 4096 = 9 ∧ w.toNat % 16 ≠ 0 ∨
      w.toNat / 4096 = 14 ∧ w.toNat % 256 ≠ 0x9E ∧ w.toNat % 256 ≠ 0xA1 ∨ w.toNat / 4096 = 15 := by
  simp only [rowsMajor9toE, List.mem_cons, List.not_mem_nil, or_false, forall_eq_or_imp, forall_eq, ← Bool.not_eq_true,
    matches_rowNNN, matches_rowXKK, matches_rowXY, matches_rowXYN, matches_rowXFF, BitVec.reduceToNat,
    Nat.reduceDiv, Nat.reduceMod]
  omega

/-- The words in no row with the major nibble F (R84). -/
theorem noMatch_rowsMajorF : (∀ r ∈ rowsMajorF, r.matches w = false) ↔
    w.toNat / 4096 = 15 → w.toNat % 256 ∉ [0x07, 0x0A, 0x15, 0x18, 0x1E, 0x29, 0x33, 0x55, 0x65] := by
  simp only [rowsMajorF, List.mem_cons, List.not_mem_nil, or_false, forall_eq_or_imp, forall_eq, ← Bool.not_eq_true,
    matches_rowXFF, BitVec.reduceToNat, Nat.reduceDiv, Nat.reduceMod]
  omega

end

/-- Settles O4: a word is invalid when each of the four groups of rows has no row for it; the major nibble tells which
group could have one. -/
theorem invalidWordsAreThoseListed : Obligations.InvalidWordsAreThoseListed := by
  intro w
  rw [decode_eq_invalid_iff, forall_mem_opcodeTable, noMatch_rowsMajor0to7, noMatch_rowsMajor8, noMatch_rowsMajor9toE,
    noMatch_rowsMajorF]
  simp only [ne_eq, ← BitVec.toNat_inj, BitVec.reduceToNat]
  -- How the groups fit together does not depend on which low digits group 8 lacks and group F has.
  generalize (w.toNat % 16 ∈ [8, 9, 10, 11, 12, 13, 15]) = outsideGroup8
  generalize (w.toNat % 256 ∈ [0x07, 0x0A, 0x15, 0x18, 0x1E, 0x29, 0x33, 0x55, 0x65]) = inGroupF
  grind

end Sys2Proof
end

section
/-! SUPPORT. The word of an instruction as a number: an operand put into free bits adds its weight (R71, R72, R98). -/

namespace Sys2Proof

/-- An operand that fits its field stays in the field's bits. -/
theorem place_and_mask {f : Field} (ordered : f.lo ≤ f.hi) {v : Nat} (fits : v < 2 ^ (f.hi + 1 - f.lo)) :
    place f v &&& f.mask = place f v := by
  apply BitVec.eq_of_getLsbD_eq
  intro k inWord
  have above : f.hi < k → v.testBit (k - f.lo) = false := fun h =>
    Nat.testBit_lt_two_pow (fits.trans_le (Nat.pow_le_pow_right (by decide) (by omega)))
  rw [BitVec.getLsbD_and, Field.getLsbD_mask ordered inWord, place, BitVec.getLsbD_shiftLeft, BitVec.getLsbD_ofNat]
  grind

section
variable {f : Field} {v : Nat} {a : Word} (ordered : f.lo ≤ f.hi) (fits : v < 2 ^ (f.hi + 1 - f.lo))
include ordered fits

/-- An operand leaves the bits of another field free. -/
theorem or_place_and_eq_zero {m : Word} (free : a &&& m = 0) (apart : f.mask &&& m = 0) :
    (a ||| place f v) &&& m = 0 := by
  rw [or_and_distrib, free, ← place_and_mask ordered fits, BitVec.and_assoc, apart]
  simp

/-- An operand put into bits that are still free adds its value times the weight of its lowest bit. -/
theorem toNat_or_place (inWord : f.hi < 16) (free : a &&& f.mask = 0) :
    (a ||| place f v).toNat = a.toNat + v * 2 ^ f.lo := by
  have apart : a &&& place f v = 0 := by
    rw [← place_and_mask ordered fits, BitVec.and_comm (place f v), ← BitVec.and_assoc, free]
    exact BitVec.zero_and
  have bound : v * 2 ^ f.lo < 2 ^ 16 := calc
    v * 2 ^ f.lo < 2 ^ (f.hi + 1 - f.lo) * 2 ^ f.lo := Nat.mul_lt_mul_of_pos_right fits (by positivity)
    _ = 2 ^ (f.hi + 1) := by rw [← pow_add, Nat.sub_add_cancel (by omega)]
    _ ≤ 2 ^ 16 := Nat.pow_le_pow_right (by decide) inWord
  have value : v < 2 ^ 16 := (Nat.le_mul_of_pos_right v (by positivity)).trans_lt bound
  rw [← BitVec.add_eq_or_of_and_eq_zero _ _ apart, BitVec.toNat_add_of_and_eq_zero apart, place, BitVec.toNat_shiftLeft,
    BitVec.toNat_ofNat, Nat.mod_eq_of_lt value, Nat.shiftLeft_eq, Nat.mod_eq_of_lt bound]

end

section
variable {base : Word}

theorem toNat_encodeNNN (free : base &&& Field.mask .nnn = 0) (nnn : Addr12) :
    (encodeNNN base nnn).toNat = base.toNat + nnn.toNat :=
  (toNat_or_place (by decide) nnn.isLt (by decide) free).trans (by simp [Field.nnn])

theorem toNat_encodeXFF (free : base &&& Field.mask .x = 0) (x : Reg) :
    (encodeXFF base x).toNat = base.toNat + 0x100 * x :=
  (toNat_or_place (by decide) x.isLt (by decide) free).trans (by simp [Field.x, Nat.mul_comm])

theorem toNat_encodeXKK (freeX : base &&& Field.mask .x = 0) (freeKK : base &&& Field.mask .kk = 0) (x : Reg) (kk : Byte) :
    (encodeXKK base x kk).toNat = base.toNat + 0x100 * x + kk.toNat := by
  have free := or_place_and_eq_zero (f := .x) (by decide) x.isLt freeKK (by decide)
  rw [← toNat_encodeXFF freeX x]
  exact (toNat_or_place (by decide) kk.isLt (by decide) free).trans (by simp [Field.kk, encodeXFF])

theorem toNat_encodeXY (freeX : base &&& Field.mask .x = 0) (freeY : base &&& Field.mask .y = 0) (x y : Reg) :
    (encodeXY base x y).toNat = base.toNat + 0x100 * x + 0x10 * y := by
  have free := or_place_and_eq_zero (f := .x) (by decide) x.isLt freeY (by decide)
  rw [← toNat_encodeXFF freeX x]
  exact (toNat_or_place (by decide) y.isLt (by decide) free).trans (by simp [Field.y, encodeXFF, Nat.mul_comm])

theorem toNat_encodeXYN (freeX : base &&& Field.mask .x = 0) (freeY : base &&& Field.mask .y = 0)
    (freeN : base &&& Field.mask .n = 0) (x y : Reg) (n : Rows) :
    (encodeXYN base x y n).toNat = base.toNat + 0x100 * x + 0x10 * y + n := by
  have free := or_place_and_eq_zero (f := .y) (by decide) y.isLt
    (or_place_and_eq_zero (f := .x) (by decide) x.isLt freeN (by decide)) (by decide)
  rw [← toNat_encodeXY freeX freeY x y]
  exact (toNat_or_place (by decide) n.isLt (by decide) free).trans (by simp [Field.n, encodeXY])

end

/-- Settles O5: the base of each form leaves the operands' bits free. -/
theorem encodingsAsNumbers : Obligations.EncodingsAsNumbers := by
  refine ⟨rfl, rfl, fun nnn => ⟨?_, ?_, ?_, ?_⟩, fun x kk => ⟨?_, ?_, ?_, ?_, ?_⟩,
    fun x y => ⟨?_, ?_, ?_, ?_, ?_, ?_, ?_, ?_, ?_, ?_, ?_, fun n => ?drw⟩,
    fun x => ⟨?_, ?_, ?_, ?_, ?_, ?_, ?_, ?_, ?_, ?_, ?_⟩⟩
  case drw => exact toNat_encodeXYN (by decide) (by decide) (by decide) x y n
  iterate 4 exact toNat_encodeNNN (by decide) nnn
  iterate 5 exact toNat_encodeXKK (by decide) (by decide) x kk
  iterate 11 exact toNat_encodeXY (by decide) (by decide) x y
  iterate 11 exact toNat_encodeXFF (by decide) x

/-- Settles O6: the decoder runs on each of the ten words. -/
theorem writtenOutWordsDecode : Obligations.WrittenOutWordsDecode := by
  unfold Obligations.WrittenOutWordsDecode
  decide

end Sys2Proof
end

section
/-! SUPPORT. The written form of instructions: each form of R97 stands for one instruction, whose own form it is. -/

namespace Sys2Proof

/-! ### Operands that fit their field (R98) -/

theorem regOperand?_eq_some {index : Nat} {x : Reg} : regOperand? index = some x ↔ index = x := by
  simp only [regOperand?, Option.dite_none_right_eq_some, Option.some.injEq, Fin.ext_iff]
  exact ⟨fun ⟨_, same⟩ => same, fun same => ⟨same ▸ x.isLt, same⟩⟩

theorem rowsOperand?_eq_some {value : Nat} {n : Rows} : rowsOperand? value = some n ↔ value = n := regOperand?_eq_some

/-- An immediate that fits its width is the number its bits stand for. -/
theorem immediate_eq_some {width value : Nat} {b : BitVec width} :
    (if value < 2 ^ width then some (BitVec.ofNat width value) else none) = some b ↔ value = b.toNat := by
  rw [Option.ite_none_right_eq_some, Option.some.injEq]
  constructor
  · rintro ⟨fits, rfl⟩
    rw [BitVec.toNat_ofNat, Nat.mod_eq_of_lt fits]
  · rintro rfl
    exact ⟨b.isLt, by rw [BitVec.ofNat_toNat, BitVec.setWidth_eq]⟩

theorem byteOperand?_eq_some {value : Nat} {kk : Byte} : byteOperand? value = some kk ↔ value = kk.toNat :=
  immediate_eq_some
theorem addrOperand?_eq_some {value : Nat} {nnn : Addr12} : addrOperand? value = some nnn ↔ value = nnn.toNat :=
  immediate_eq_some

section
variable {i : Instr}

theorem withReg_eq_some {x : Nat} {form : Reg → Instr} : withReg x form = some i ↔ ∃ rx : Reg, x = rx ∧ form rx = i := by
  simp only [withReg, Option.map_eq_some_iff, regOperand?_eq_some]
theorem withAddr_eq_some {value : Nat} {form : Addr12 → Instr} :
    withAddr value form = some i ↔ ∃ nnn : Addr12, value = nnn.toNat ∧ form nnn = i := by
  simp only [withAddr, Option.map_eq_some_iff, addrOperand?_eq_some]
theorem withRegReg_eq_some {x y : Nat} {form : Reg → Reg → Instr} :
    withRegReg x y form = some i ↔ ∃ rx ry : Reg, x = rx ∧ y = ry ∧ form rx ry = i := by
  simp only [withRegReg, Option.bind_eq_some_iff, Option.map_eq_some_iff, exists_and_left, regOperand?_eq_some]
theorem withRegByte_eq_some {x value : Nat} {form : Reg → Byte → Instr} :
    withRegByte x value form = some i ↔ ∃ (rx : Reg) (kk : Byte), x = rx ∧ value = kk.toNat ∧ form rx kk = i := by
  simp only [withRegByte, Option.bind_eq_some_iff, Option.map_eq_some_iff, exists_and_left, regOperand?_eq_some,
    byteOperand?_eq_some]

end

/-- The written form of an instruction stands for it: its operands fit their fields (R71, R97). -/
@[simp] theorem toInstr?_toAsm (i : Instr) : i.toAsm.toInstr? = some i := by
  cases i <;>
    simp [Instr.toAsm, AsmInstr.toInstr?, withReg, withAddr, withRegReg, withRegByte, regOperand?_val, rowsOperand?_val,
      byteOperand?_toNat, addrOperand?_toNat]

/-- Of the forms of R97, one stands for an instruction: its own. -/
theorem toAsm_of_toInstr? {a : AsmInstr} {i : Instr} (h : a.toInstr? = some i) : i.toAsm = a := by
  obtain ⟨mnemonic, operands⟩ := a
  revert h
  unfold AsmInstr.toInstr?
  split <;>
    simp only [withReg_eq_some, withAddr_eq_some, withRegReg_eq_some, withRegByte_eq_some, rowsOperand?_eq_some,
      Option.bind_eq_some_iff, Option.some.injEq, reduceCtorEq, false_imp_iff, exists_imp, and_imp]
  all_goals
    intros
    subst_vars
    rfl

/-! ### A program of one instruction (R95, R96) -/

namespace Machine

/-- A written form has no names, so nothing in it is replaced. -/
@[simp] theorem resolve_toAsm (names : List (String × Nat)) (i : Instr) : resolve names i.toAsm = some i.toAsm := by
  cases i <;> rfl

theorem assemble_one_toAsm (c : Config) (i : Instr) : assemble c [.code none (some i.toAsm)] = some [encode i] := by
  simp [assemble, symbols, symbolsFrom, SourceLine.instr?]

end Machine

/-- Settles O7: the written form stands for its instruction, holds no name to replace, and is the only one that does. -/
theorem assemblyRoundTrip : Obligations.AssemblyRoundTrip :=
  ⟨toInstr?_toAsm, Machine.assemble_one_toAsm, fun _ _ => toAsm_of_toInstr?⟩

end Sys2Proof
end

section
/-! SUPPORT. The display (40_display.md): CLS, DRW as the picture it draws, and the same DRW twice. -/

namespace Sys2Proof.Machine

variable {x y : Reg} {n : Rows} {s : State}

/-- Settles O18: CLS is one update of FB, then of PC. -/
theorem clsClearsTheScreen : Obligations.ClsClearsTheScreen :=
  ⟨rfl, fun _ => ⟨_, rfl, fbShape_cleared, pixel_cleared, advance_pc _,
    keepsExcept_of_fields rfl (.inr rfl) (.inr rfl) (.inl (by decide)) (.inr rfl) (.inr rfl) (.inr rfl) (.inr rfl)
      (.inl (by decide)) (.inr rfl) (.inr rfl) (.inr rfl) (.inr rfl)⟩⟩

/-! ### One DRW -/

/-- DRW draws where it has no rows to read or all of them are memory (R101, decision D11). -/
theorem exec_drw_of_inside (inside : n.val = 0 ∨ s.i.toNat + n - 1 < s.config.memSize) :
    exec (.drw x y n) s = .next (advance (drawn x y n s)) := by
  by_cases noRows : n.val = 0
  · exact if_pos noRows
  · exact (if_neg noRows).trans (checked_of_fits (by omega) (by unfold indexAddress; omega))

/-- DRW only faults where it has rows to read that leave memory (R53, R101). -/
theorem exec_drw_of_outside (rows : 1 ≤ n.val) (outside : s.i.toNat + n - 1 ≥ s.config.memSize) :
    exec (.drw x y n) s = .next { s with fault := some (boundsRecord (.drw x y n) s) } :=
  (if_neg (by omega)).trans (checked_of_overrun outside)

/-- The framebuffer DRW leaves and the collision it finds (R101). -/
def drwBlit (x y : Reg) (n : Rows) (s : State) : Blit :=
  blit s.config s.fb (startColumn x s) (startLine y s) (spriteRows n s)

@[simp] theorem drawn_config : (drawn x y n s).config = s.config := rfl
@[simp] theorem drawn_i : (drawn x y n s).i = s.i := rfl
@[simp] theorem bytesAt_advance_drawn (a k : Nat) : bytesAt (advance (drawn x y n s)) a k = bytesAt s a k := rfl
@[simp] theorem drawn_fb : (drawn x y n s).fb = (drwBlit x y n s).1 := rfl

/-- VF is the collision, every other register is kept (R101). -/
@[simp] theorem getV_drawn (r : Reg) :
    getV (drawn x y n s) r = if r = vf then flagByte (drwBlit x y n s).2 else getV s r := getV_setV ..

/-- DRW draws its sprite: no sprite has more rows than the screen. -/
theorem draws_drwBlit (shape : FbShape s.config s.fb) : Draws (drwCovers x y n s) (s.fb, false) (drwBlit x y n s) := by
  refine draws_blit shape (startColumn x s) (startLine y s) (spriteRows n s) ?_
  have rows : (spriteRows n s).length = n := length_bytesAt ..
  have room := s.config.valid.dispH_room
  omega

/-- DRW finds a collision where a pixel it covers was set (R101). -/
theorem drwBlit_collision (shape : FbShape s.config s.fb) :
    (drwBlit x y n s).2 = true ↔ ∃ px py, drwCovers x y n s px py ∧ pixel s.fb px py = true := by
  simpa using (draws_drwBlit shape).collision

/-- The frame of a DRW that draws (R101). -/
theorem drawn_keepsExcept : KeepsExcept [.fb, .v, .pc] s (advance (drawn x y n s)) :=
  keepsExcept_of_fields rfl (.inl (by decide)) (.inr rfl) (.inl (by decide)) (.inr rfl) (.inr rfl) (.inr rfl) (.inr rfl)
    (.inl (by decide)) (.inr rfl) (.inr rfl) (.inr rfl) (.inr rfl)

/-- Settles O19: past its range check DRW is the blit of its sprite, with the collision in VF. -/
theorem drwDrawsItsSprite : Obligations.DrwDrawsItsSprite := by
  intro x y n s
  refine ⟨toNat_encodeXYN (by decide) (by decide) (by decide) x y n, exec_drw_of_outside, fun inside shape => ?_⟩
  have draws := draws_drwBlit (x := x) (y := y) (n := n) shape
  have collision := drwBlit_collision (x := x) (y := y) (n := n) shape
  refine ⟨_, exec_drw_of_inside inside, fbShape_blit _ _ _ shape, advance_pc _, drawn_keepsExcept, fun r other => ?_,
    draws.flipped, draws.kept, fun hit => ?_, fun miss => ?_⟩
  · simp [other]
  · simp [flagByte, collision.2 hit]
  · simp [flagByte, mt collision.1 miss]

/-! ### The same DRW twice -/

/-- Once DRW has drawn, the same DRW covers the same pixels: the registers of its coordinates are not VF (R102). -/
theorem drwCovers_drawn (hx : x ≠ vf) (hy : y ≠ vf) :
    drwCovers x y n (advance (drawn x y n s)) = drwCovers x y n s := by
  unfold drwCovers
  simp [hx, hy]

/-- Every state two equal DRWs can leave when neither faults is the one they draw. -/
theorem eq_drawn_twice {t u : State} (inside : n.val = 0 ∨ s.i.toNat + n - 1 < s.config.memSize)
    (first : exec (.drw x y n) s = .next t) (second : exec (.drw x y n) t = .next u) :
    t = advance (drawn x y n s) ∧ u = advance (drawn x y n t) := by
  obtain rfl := Host.Outcome.next.inj ((exec_drw_of_inside inside).symm.trans first)
  rw [exec_drw_of_inside (by simpa using inside)] at second
  exact ⟨rfl, (Host.Outcome.next.inj second).symm⟩

section
variable (hx : x ≠ vf) (hy : y ≠ vf) (shape : FbShape s.config s.fb)
include hx hy shape

/-- The second DRW draws the same pixels on what the first has left. -/
theorem draws_drwBlit_again : Draws (drwCovers x y n s) ((drwBlit x y n s).1, false)
    (drwBlit x y n (advance (drawn x y n s))) := by
  rw [← drwCovers_drawn hx hy]
  exact draws_drwBlit (fbShape_blit _ _ _ shape)

/-- A pixel flips twice or not at all (R102). -/
theorem pixel_drwBlit_again (px py : Nat) :
    pixel (drwBlit x y n (advance (drawn x y n s))).1 px py = pixel s.fb px py := by
  have first := draws_drwBlit (x := x) (y := y) (n := n) shape
  have second := draws_drwBlit_again (n := n) hx hy shape
  by_cases covered : drwCovers x y n s px py
  · rw [second.flipped _ _ covered, first.flipped _ _ covered, Bool.not_not]
  · rw [second.kept _ _ covered, first.kept _ _ covered]

/-- The second DRW hits the pixels that the first has set, which were clear before it. -/
theorem drwBlit_again_collision : (drwBlit x y n (advance (drawn x y n s))).2 = true ↔
    ∃ px py, drwCovers x y n s px py ∧ pixel s.fb px py = false := by
  have flipped := (draws_drwBlit (x := x) (y := y) (n := n) shape).flipped
  rw [(draws_drwBlit_again hx hy shape).collision, or_iff_right Bool.false_ne_true]
  refine exists₂_congr fun px py => and_congr_right fun covered => ?_
  rw [flipped px py covered, Bool.not_eq_true']

end

/-- Settles O20: the second DRW flips the same pixels back, and hits those that the first has set. -/
theorem drwTwiceRestoresTheScreen : Obligations.DrwTwiceRestoresTheScreen := by
  intro x y n s t u hx hy shape inside first second
  obtain ⟨rfl, rfl⟩ := eq_drawn_twice inside first second
  have collision := drwBlit_again_collision (n := n) hx hy shape
  refine ⟨pixel_drwBlit_again hx hy shape, fun hit => ?_, fun miss => ?_, fun clear => ?_⟩
  · simp [flagByte, collision.2 hit]
  · simp [flagByte, mt collision.1 miss]
  · have hitsAnySetBit : (drwBlit x y n (advance (drawn x y n s))).2 =
        (bytesAt s s.i.toNat n).any fun b => decide (b ≠ 0) := by
      rw [Bool.eq_iff_iff, collision, ← exists_spriteCovers]
      simp only [clear, and_true]
      rfl
    simp [flagByte, hitsAnySetBit]

/-- Refutes O21: where the top row of glyph 0 is on the screen before the first DRW of it, the first clears its four pixels,
so the second hits none and leaves 0 in VF, though the row has set bits. -/
theorem not_repeatedDrwInTheWordsOfR102 : ¬ Obligations.RepeatedDrwInTheWordsOfR102 := by
  intro claim
  let s := drawn 0 1 1 State.reset
  let t := advance (drawn 0 1 1 s)
  let u := advance (drawn 0 1 1 t)
  obtain ⟨-, claimed⟩ := claim 0 1 1 s t u (by decide) (by decide) (by decide) (.inr (by decide)) rfl rfl
  have setBit : ((bytesAt s s.i.toNat (1 : Rows)).any fun b => decide (b ≠ 0)) = true := by decide
  have hitsNone : getV u vf = 0 := by decide
  rw [setBit, hitsNone] at claimed
  exact absurd claimed (by decide)

end Sys2Proof.Machine
end

section
/-! SUPPORT. Control flow (41_control_flow.md): the skips and jumps, CALL and RET, and how they nest. -/

namespace Sys2Proof.Machine

variable {s : State}

/-! ### Skips and jumps -/

/-- The frame of a redirect (R25). -/
theorem redirect_keepsExcept (target : Word) : KeepsExcept [.pc] s (redirect target s) := fun p other => by
  cases p with
  | pc => exact absurd (by decide) other
  | v | mem => exact fun _ => rfl
  | _ => exact rfl

/-- A conditional skip is the redirect to one of two sums. -/
theorem skipIf_keepsExcept (c : Bool) : KeepsExcept [.pc] s (skipIf c s) := redirect_keepsExcept _

/-- Settles O23: each skip is a `skipIf`, SE on the condition and SNE on its negation. -/
theorem registerSkips : Obligations.RegisterSkips := fun x y kk s =>
  ⟨⟨toNat_encodeXKK (by decide) (by decide) x kk, _, rfl,
      skipIf_pc_of_iff beq_iff_eq s, skipIf_keepsExcept _, fun quiet => fetchChecksTarget quiet⟩,
    ⟨toNat_encodeXKK (by decide) (by decide) x kk, _, rfl,
      (skipIf_pc_of_iff bne_iff_ne s).trans (ite_not ..), skipIf_keepsExcept _, fun quiet => fetchChecksTarget quiet⟩,
    ⟨toNat_encodeXY (by decide) (by decide) x y, _, rfl,
      skipIf_pc_of_iff beq_iff_eq s, skipIf_keepsExcept _, fun quiet => fetchChecksTarget quiet⟩,
    ⟨toNat_encodeXY (by decide) (by decide) x y, _, rfl,
      (skipIf_pc_of_iff bne_iff_ne s).trans (ite_not ..), skipIf_keepsExcept _, fun quiet => fetchChecksTarget quiet⟩⟩

/-- Settles O24: both jumps are a redirect, to a word that holds the target without a wrap. -/
theorem jumpsGoToTheirTarget : Obligations.JumpsGoToTheirTarget := fun nnn s =>
  ⟨⟨toNat_encodeNNN (by decide) nnn, _, rfl, toNat_zext12 nnn, redirect_keepsExcept _,
      fun quiet => fetchChecksTarget quiet⟩,
    ⟨toNat_encodeNNN (by decide) nnn, _, rfl, toNat_indexedTarget nnn s, redirect_keepsExcept _,
      fun quiet => fetchChecksTarget quiet⟩⟩

/-! ### CALL and RET -/

/-- The next state of a CALL that does not fault (R122). -/
def calledTo (nnn : Addr12) (s : State) : State :=
  { s with pc := zext12 nnn, sp := s.sp + 1, stack := s.stack.set s.sp (s.pc + 2) }

/-- The next state of a RET through entry k (R120). -/
def returnedThrough (k : Nat) (s : State) : State := { s with pc := stackEntry s k, sp := k }

/-- CALL pushes and jumps where the stack has room (R122). -/
theorem exec_call_of_room {nnn : Addr12} (room : s.sp < s.config.stackDepth) :
    exec (.call nnn) s = .next (calledTo nnn s) := by
  simp only [exec, execCall, advance_pc, push?_of_room room]
  rfl

/-- CALL only faults where the stack is full (R32, R122). -/
theorem exec_call_of_full {nnn : Addr12} (full : s.config.stackDepth ≤ s.sp) : exec (.call nnn) s =
    .next { s with fault := some ⟨.stackOverflow, s.pc, some (encode (.call nnn)), none, none⟩ } := by
  simp only [exec, execCall, push?_of_full full]
  rfl

/-- RET goes to the top entry where there is one (R120). -/
theorem exec_ret_of_entry {k : Nat} (entry : s.sp = k + 1) : exec .ret s = .next (returnedThrough k s) := by
  simp only [exec, execRet, pop?_of_entry entry]
  rfl

/-- RET only faults where the stack is empty (R33, R120). -/
theorem exec_ret_of_empty (empty : s.sp = 0) :
    exec .ret s = .next { s with fault := some ⟨.stackUnderflow, s.pc, some (encode .ret), none, none⟩ } := by
  simp only [exec, execRet, pop?_of_empty empty]
  rfl

/-- A CALL writes one entry, the one at SP (R32). -/
theorem stackEntry_calledTo {nnn : Addr12} (inside : s.sp < s.stack.length) (k : Nat) :
    stackEntry (calledTo nnn s) k = if k = s.sp then s.pc + 2 else stackEntry s k :=
  getD_set _ _ _ _ inside

/-- The frame of a CALL that does not fault (R122). -/
theorem calledTo_keepsExcept (nnn : Addr12) : KeepsExcept [.pc, .sp, .stack] s (calledTo nnn s) := fun p other => by
  cases p with
  | pc | sp | stack => exact absurd (by decide) other
  | v | mem => exact fun _ => rfl
  | _ => exact rfl

/-- The frame of a RET that does not fault: the popped entry stays in the array (R33, R120). -/
theorem returnedThrough_keepsExcept (k : Nat) : KeepsExcept [.pc, .sp] s (returnedThrough k s) := fun p other => by
  cases p with
  | pc | sp => exact absurd (by decide) other
  | v | mem => exact fun _ => rfl
  | _ => exact rfl

/-- Settles O25: CALL is one push and a redirect, or the fault of the push. -/
theorem callPushesTheReturnAddress : Obligations.CallPushesTheReturnAddress := fun nnn _ ⟨length, _⟩ =>
  ⟨toNat_encodeNNN (by decide) nnn,
    fun room => ⟨_, exec_call_of_room room, toNat_zext12 nnn, rfl, List.length_set,
      stackEntry_calledTo (length ▸ room), calledTo_keepsExcept nnn, fun quiet => fetchChecksTarget quiet⟩,
    fun full => exec_call_of_full full.ge⟩

/-- Settles O26: RET is one pop and a redirect, or the fault of the pop. -/
theorem retPopsTheReturnAddress : Obligations.RetPopsTheReturnAddress :=
  ⟨rfl, fun _ => ⟨fun k entry => ⟨_, exec_ret_of_entry entry, rfl, rfl, returnedThrough_keepsExcept k⟩,
    exec_ret_of_empty⟩⟩

/-! ### Nesting -/

@[simp] theorem returnedThrough_sp (k : Nat) : (returnedThrough k s).sp = k := rfl
@[simp] theorem calledTo_atPc_sp (nnn : Addr12) (a : Word) : (calledTo nnn (atPc a s)).sp = s.sp + 1 := rfl
@[simp] theorem calledTo_atPc_config (nnn : Addr12) (a : Word) : (calledTo nnn (atPc a s)).config = s.config := rfl

/-- A CALL from a stack with room leaves it in its shape (R31). -/
theorem stackShape_calledTo {nnn : Addr12} (shape : StackShape s) (room : s.sp < s.config.stackDepth) :
    StackShape (calledTo nnn s) :=
  ⟨List.length_set.trans shape.1, room⟩

/-- So does a RET (R31). -/
theorem stackShape_returnedThrough {k : Nat} (shape : StackShape s) (entry : s.sp = k + 1) :
    StackShape (returnedThrough k s) :=
  ⟨shape.1, Nat.le_of_succ_le (entry.ge.trans shape.2)⟩

/-- A CALL puts its return address on the valid entries (R122). -/
theorem frames_calledTo {nnn : Addr12} (inside : s.sp < s.stack.length) :
    frames (calledTo nnn s) = (s.pc + 2) :: frames s :=
  frames_of_push inside rfl rfl

/-- The first of some CALLs, where the stack has room for it, goes on with the others. -/
theorem callsAt_cons_of_room {a : Word} {nnn : Addr12} (calls : List (Word × Addr12)) (quiet : s.fault = none)
    (room : s.sp < s.config.stackDepth) : callsAt ((a, nnn) :: calls) s = callsAt calls (calledTo nnn (atPc a s)) := by
  have called : exec (.call nnn) (atPc a s) = .next (calledTo nnn (atPc a s)) := exec_call_of_room room
  simp only [callsAt, called]
  exact if_pos quiet

/-- The first of some RETs, where the stack has an entry for it, goes on with the others. -/
theorem returns_succ_of_entry {k : Nat} (n : Nat) (quiet : s.fault = none) (entry : s.sp = k + 1) :
    returns (n + 1) s = (returns n (returnedThrough k s)).map fun p => (stackEntry s k :: p.1, p.2) := by
  simp only [returns, exec_ret_of_entry entry]
  exact if_pos quiet

/-- CALLs that the stack has room for do not fault, and put their return addresses on the valid entries, the last call's on
top (R122, R128). -/
theorem callsAt_of_room (calls : List (Word × Addr12)) {s : State} (quiet : s.fault = none) (shape : StackShape s)
    (room : s.sp + calls.length ≤ s.config.stackDepth) :
    ∃ t, callsAt calls s = some t ∧ t.fault = none ∧ StackShape t ∧ t.sp = s.sp + calls.length ∧
      frames t = (calls.map fun c => c.1 + 2).reverse ++ frames s := by
  induction calls generalizing s with
  | nil => exact ⟨s, rfl, quiet, shape, rfl, rfl⟩
  | cons call calls ih =>
    obtain ⟨a, nnn⟩ := call
    rw [List.length_cons] at room
    have roomForOne : s.sp < s.config.stackDepth := by omega
    have pushed : frames (calledTo nnn (atPc a s)) = (a + 2) :: frames s :=
      frames_calledTo (s := atPc a s) (shape.1 ▸ roomForOne)
    obtain ⟨t, ran, quietEnd, shapeEnd, sp, top⟩ := ih (s := calledTo nnn (atPc a s)) quiet
      (stackShape_calledTo shape roomForOne) (by simp only [calledTo_atPc_sp, calledTo_atPc_config]; omega)
    refine ⟨t, (callsAt_cons_of_room calls quiet roomForOne).trans ran, quietEnd, shapeEnd, ?_, ?_⟩
    · rw [sp, calledTo_atPc_sp, List.length_cons]; omega
    · rw [top, pushed]; simp

/-- As many RETs as there are words on top of the valid entries go to those words in order (R120, R128). -/
theorem returns_of_frames (targets rest : List Word) {s : State} (quiet : s.fault = none) (shape : StackShape s)
    (top : frames s = targets ++ rest) :
    ∃ u, returns targets.length s = some (targets, u) ∧ u.sp + targets.length = s.sp := by
  induction targets generalizing s with
  | nil => exact ⟨s, rfl, rfl⟩
  | cons target targets ih =>
    cases entry : s.sp with
    | zero => simp [frames, entry] at top
    | succ k =>
      have inside : k < s.stack.length := by rw [shape.1]; omega
      rw [frames_of_succ entry inside, List.cons_append, List.cons.injEq] at top
      obtain ⟨rfl, below⟩ := top
      obtain ⟨u, ran, sp⟩ := ih (s := returnedThrough k s) quiet (stackShape_returnedThrough shape entry) below
      refine ⟨u, ?_, ?_⟩
      · rw [List.length_cons, returns_succ_of_entry _ quiet entry, ran, Option.map_some]
      · rw [returnedThrough_sp] at sp
        rw [List.length_cons]; omega

/-- Settles O27: the CALLs stack up their return addresses, the last on top, and the RETs go down them. -/
theorem callsAndReturnsNest : Obligations.CallsAndReturnsNest := by
  intro calls s quiet shape room
  obtain ⟨t, called, quiet', shape', sp, top⟩ := callsAt_of_room calls quiet shape room
  obtain ⟨u, returned, sp'⟩ := returns_of_frames _ (frames s) quiet' shape' top
  simp only [List.length_reverse, List.length_map] at returned sp'
  exact ⟨t, u, called, returned, by omega⟩

end Sys2Proof.Machine
end

section
/-! SUPPORT. The ALU family (42_alu.md): the two updates its meanings make, their frame, and the bytes they write as the
numbers the rules give. -/

namespace Sys2Proof.Machine

variable {x : Reg} {s t u : State}

/-! ### Frames of updates in a row -/

theorem samePart_trans {p : Part} (first : samePart p s t) (second : samePart p t u) : samePart p s u := by
  cases p with
  | v | mem => exact fun k => (second k).trans (first k)
  | _ => exact Eq.trans second first

/-- One update after another changes what either of them may. -/
theorem KeepsExcept.trans {parts more : List Part} (first : KeepsExcept parts s t) (second : KeepsExcept more t u) :
    KeepsExcept (parts ++ more) s u := fun p other =>
  samePart_trans (first p fun listed => other (List.mem_append_left _ listed))
    (second p fun listed => other (List.mem_append_right _ listed))

theorem setV_keepsExcept (r : Reg) (b : Byte) : KeepsExcept [.v] s (setV r b s) := fun p other => by
  cases p with
  | v => exact absurd (by decide) other
  | mem => exact fun _ => rfl
  | _ => exact rfl

/-- The sequential next PC is a redirect as well (R25). -/
theorem advance_keepsExcept : KeepsExcept [.pc] s (advance s) := redirect_keepsExcept _

theorem withHost_keepsExcept (h : HostPort) : KeepsExcept [.host] s { s with host := h } := fun p other => by
  cases p with
  | host => exact absurd (by decide) other
  | v | mem => exact fun _ => rfl
  | _ => exact rfl

/-! ### The two updates of the family -/

/-- A result and no flag (R140 to R148). -/
theorem writesReg_advance_setV (b : Byte) : WritesReg x b s (advance (setV x b s)) :=
  ⟨fun r => getV_setV s x r b, advance_pc _, (setV_keepsExcept x b).trans advance_keepsExcept⟩

/-- The flag is the last write, so VF holds it even as the destination (R142). -/
theorem getV_writeResultAndFlag (b flag : Byte) (r : Reg) :
    getV (writeResultAndFlag x b flag s) r = if r = vf then flag else if r = x then b else getV s r := by
  simp only [writeResultAndFlag, getV_setV]

theorem writeResultAndFlag_keepsExcept (b flag : Byte) : KeepsExcept [.v] s (writeResultAndFlag x b flag s) :=
  ((setV_keepsExcept x b).trans (setV_keepsExcept vf flag)).mono (by decide)

/-- A result and then a flag (R142, R149 to R154). -/
theorem writesRegAndFlag_advance (b flag : Byte) : WritesRegAndFlag x b flag s (advance (writeResultAndFlag x b flag s)) :=
  ⟨getV_writeResultAndFlag b flag, advance_pc _, (writeResultAndFlag_keepsExcept b flag).trans advance_keepsExcept⟩

/-! ### Results and flags as numbers -/

/-- A sum wraps mod 256 (R158). -/
theorem add_eq_ofNat (a b : Byte) : a + b = BitVec.ofNat 8 ((a.toNat + b.toNat) % 256) := by
  rw [← BitVec.toNat_inj, BitVec.toNat_add, BitVec.toNat_ofNat, Nat.mod_mod]

/-- A difference wraps mod 256 (R158). -/
theorem sub_eq_ofNat (a b : Byte) : a - b = BitVec.ofNat 8 ((256 + a.toNat - b.toNat) % 256) := by
  rw [← BitVec.toNat_inj, BitVec.toNat_sub, BitVec.toNat_ofNat]
  omega

theorem ushiftRight_one_eq_ofNat (a : Byte) : a >>> 1 = BitVec.ofNat 8 (a.toNat / 2) := by
  rw [← BitVec.toNat_inj, BitVec.toNat_ushiftRight, BitVec.toNat_ofNat, Nat.shiftRight_eq_div_pow]
  omega

theorem shiftLeft_one_eq_ofNat (a : Byte) : a <<< 1 = BitVec.ofNat 8 (2 * a.toNat % 256) := by
  rw [← BitVec.toNat_inj, BitVec.toNat_shiftLeft, BitVec.toNat_ofNat, Nat.shiftLeft_eq]
  omega

theorem flagByte_decide (p : Prop) [Decidable p] : flagByte (decide p) = if p then 1 else 0 := by
  simp only [flagByte, decide_eq_true_eq]

/-- SHR shifts out what division by 2 leaves (R152). -/
theorem shiftedOutRight_eq_ofNat (a : Byte) : shiftedOutRight a = BitVec.ofNat 8 (a.toNat % 2) := by
  rw [← BitVec.toNat_inj, shiftedOutRight, BitVec.toNat_and, BitVec.toNat_ofNat]
  exact (Nat.and_one_is_mod _).trans (by omega)

/-- SHL shifts out what is 1 from 128 on (R154). -/
theorem shiftedOutLeft_eq_ofNat (a : Byte) : shiftedOutLeft a = BitVec.ofNat 8 (a.toNat / 128) := by
  have byte := a.isLt
  rw [← BitVec.toNat_inj, shiftedOutLeft, BitVec.toNat_and, BitVec.toNat_ushiftRight, BitVec.toNat_ofNat,
    Nat.shiftRight_eq_div_pow]
  exact (Nat.and_one_is_mod _).trans (by omega)

/-! ### The instructions -/

/-- Settles O30: both write one register, ADD the sum as a byte adds. -/
theorem immediateFormsWriteTheirRegister : Obligations.ImmediateFormsWriteTheirRegister := fun x kk s =>
  ⟨⟨toNat_encodeXKK (by decide) (by decide) x kk, _, rfl, writesReg_advance_setV kk⟩,
    ⟨toNat_encodeXKK (by decide) (by decide) x kk, _, rfl, add_eq_ofNat (getV s x) kk ▸ writesReg_advance_setV _⟩⟩

/-- Settles O31: each writes one register, with a byte whose bits the operands' bits give. -/
theorem logicFormsWriteTheirRegister : Obligations.LogicFormsWriteTheirRegister := fun x y s =>
  ⟨⟨toNat_encodeXY (by decide) (by decide) x y, _, rfl, writesReg_advance_setV _⟩,
    ⟨toNat_encodeXY (by decide) (by decide) x y, _, _, rfl, writesReg_advance_setV _, fun _ => BitVec.getLsbD_or⟩,
    ⟨toNat_encodeXY (by decide) (by decide) x y, _, _, rfl, writesReg_advance_setV _, fun _ => BitVec.getLsbD_and⟩,
    ⟨toNat_encodeXY (by decide) (by decide) x y, _, _, rfl, writesReg_advance_setV _, fun _ => BitVec.getLsbD_xor⟩⟩

/-- Settles O32: each writes a sum or a difference of bytes and its carry or no borrow, both of the operands before. -/
theorem addSubSubnWriteResultThenFlag : Obligations.AddSubSubnWriteResultThenFlag := by
  intro x y s
  simp only [← add_eq_ofNat, ← sub_eq_ofNat, ← flagByte_decide]
  exact ⟨⟨toNat_encodeXY (by decide) (by decide) x y, _, rfl, writesRegAndFlag_advance _ _⟩,
    ⟨toNat_encodeXY (by decide) (by decide) x y, _, rfl, writesRegAndFlag_advance _ _⟩,
    ⟨toNat_encodeXY (by decide) (by decide) x y, _, rfl, writesRegAndFlag_advance _ _⟩⟩

/-- Settles O33: each writes Vx shifted by one and the bit it shifts out; neither update names Vy. -/
theorem shiftsWriteResultThenFlag : Obligations.ShiftsWriteResultThenFlag := by
  intro x y s
  simp only [← ushiftRight_one_eq_ofNat, ← shiftLeft_one_eq_ofNat, ← shiftedOutRight_eq_ofNat, ← shiftedOutLeft_eq_ofNat]
  exact ⟨⟨toNat_encodeXY (by decide) (by decide) x y, _, rfl, writesRegAndFlag_advance _ _⟩,
    ⟨toNat_encodeXY (by decide) (by decide) x y, _, rfl, writesRegAndFlag_advance _ _⟩⟩

/-- Settles O34: RND draws, which changes the host's part only, and then writes one register of that state. -/
theorem rndMasksTheDraw : Obligations.RndMasksTheDraw := by
  intro x kk s
  obtain ⟨regs, pc, frame⟩ :=
    writesReg_advance_setV (x := x) (s := { s with host := (rand8 s.host).2 }) ((rand8 s.host).1 &&& kk)
  refine ⟨toNat_encodeXKK (by decide) (by decide) x kk, _, (rand8 s.host).1, rfl, rfl, regs, fun k outside => ?_, pc,
    ((withHost_keepsExcept _).trans frame).mono (by decide)⟩
  rw [regs x, if_pos rfl, BitVec.getLsbD_and, outside, Bool.and_false]

end Sys2Proof.Machine
end

section
/-! SUPPORT. The address-register and memory family (43_index_memory.md): the updates its meanings make, their frames, and a
store and a load of the same registers. -/

namespace Sys2Proof.Machine

variable {x : Reg} {s : State}

/-! ### The updates and their frames -/

theorem withIndex_keepsExcept (w : Word) : KeepsExcept [.i] s { s with i := w } := fun p other => by
  cases p with
  | i => exact absurd (by decide) other
  | v | mem => exact fun _ => rfl
  | _ => exact rfl

theorem withRegisters_keepsExcept (regs : Vector Byte 16) : KeepsExcept [.v] s { s with v := regs } := fun p other => by
  cases p with
  | v => exact absurd (by decide) other
  | mem => exact fun _ => rfl
  | _ => exact rfl

theorem storeBytes_keepsExcept (a : Nat) (bytes : List Byte) : KeepsExcept [.mem] s (storeBytes a bytes s) :=
  fun p other => by
    cases p with
    | mem => exact absurd (by decide) other
    | v => exact fun _ => rfl
    | _ => exact rfl

/-- A store and the sequential next PC (R25, R52). -/
theorem storesBytes_advance_storeBytes (a : Nat) (bytes : List Byte) :
    StoresBytes a bytes s (advance (storeBytes a bytes s)) :=
  ⟨fun k inside => byteAt_storeBytes_at s a k bytes inside, fun b outside => byteAt_storeBytes_outside s a b bytes outside,
    advance_pc _, (storeBytes_keepsExcept a bytes).trans advance_keepsExcept⟩

/-- A load of V0 to Vx, register by register (R176). -/
theorem getV_loadRegisters (a : Nat) (r : Reg) :
    getV { s with v := loadRegisters x a s } r = if r ≤ x then byteAt s (a + r) else getV s r := by
  simp [getV, loadRegisters, Vector.get_eq_getElem]

/-- A range at I that leaves memory only faults (R53). -/
theorem checked_index_of_overrun {i : Instr} {n : Nat} {rest : State} (overrun : s.i.toNat + n - 1 ≥ s.config.memSize) :
    checked i (indexAddress s) n s rest = .next { s with fault := some (boundsRecord i s) } :=
  checked_of_overrun overrun

/-- The BCD digits, each a byte that holds its number, make the byte again (R174). -/
theorem bcdDigits_eq (b : Byte) : ∃ h z u : Byte, bcdDigits b = [h, z, u] ∧
    b.toNat = 100 * h.toNat + 10 * z.toNat + u.toNat ∧ z.toNat ≤ 9 ∧ u.toNat ≤ 9 := by
  refine ⟨_, _, _, rfl, ?_⟩
  have byte := b.isLt
  simp only [BitVec.toNat_ofNat]
  omega

/-! ### The instructions -/

/-- Settles O35: each writes I alone; the sum wraps as a word does, the other two values fit in one. -/
theorem indexFormsWriteI : Obligations.IndexFormsWriteI := fun x nnn s =>
  have frame (w : Word) : KeepsExcept [.i, .pc] s (advance { s with i := w }) :=
    (withIndex_keepsExcept w).trans advance_keepsExcept
  have sum : (s.i + zext8 (getV s x)).toNat = (s.i.toNat + (getV s x).toNat) % 2 ^ 16 := by
    rw [BitVec.toNat_add, BitVec.toNat_setWidth_of_le (by decide)]
  ⟨⟨toNat_encodeNNN (by decide) nnn, _, rfl, toNat_zext12 nnn, advance_pc _, frame _⟩,
    ⟨toNat_encodeXFF (by decide) x, _, rfl, sum, advance_pc _, frame _⟩,
    ⟨toNat_encodeXFF (by decide) x, _, rfl, advance_pc _, toNat_glyphAddress (getV s x) s, frame _⟩⟩

/-- Settles O36: a checked store of the three digits. -/
theorem movBStoresTheDigits : Obligations.MovBStoresTheDigits := by
  intro x s
  refine ⟨toNat_encodeXFF (by decide) x, fun fits => ?_, fun overrun => checked_index_of_overrun overrun⟩
  obtain ⟨h, z, u, digits, value, tens, units⟩ := bcdDigits_eq (getV s x)
  exact ⟨_, h, z, u, checked_of_fits (by decide) fits, digits ▸ storesBytes_advance_storeBytes _ _, value, tens, units⟩

/-- Settles O37: a checked store of the registers up to Vx. -/
theorem storeRegsStoresV0ToVx : Obligations.StoreRegsStoresV0ToVx := by
  intro x s
  refine ⟨toNat_encodeXFF (by decide) x, fun fits => ?_, fun overrun => checked_index_of_overrun overrun⟩
  obtain ⟨_, outside, pc, frame⟩ := storesBytes_advance_storeBytes (s := s) s.i.toNat (registersUpTo x s)
  rw [length_registersUpTo] at outside
  exact ⟨_, checked_of_fits (Nat.le_add_left ..) fits, 
    fun r upTo => (byteAt_advance ..).trans (byteAt_storeBytes_registersUpTo _ upTo), outside, pc, frame⟩

/-- Settles O38: a checked load of the registers up to Vx. -/
theorem loadRegsLoadsV0ToVx : Obligations.LoadRegsLoadsV0ToVx := by
  intro x s
  refine ⟨toNat_encodeXFF (by decide) x, fun fits => ?_, fun overrun => checked_index_of_overrun overrun⟩
  exact ⟨_, checked_of_fits (Nat.le_add_left ..) fits, fun r => (getV_advance ..).trans (getV_loadRegisters _ r),
    advance_pc _, (withRegisters_keepsExcept _).trans advance_keepsExcept⟩

/-- Settles O39: the store keeps I, so the load's range is the store's. Where it is memory, the load reads the bytes the
store left; where it is not, both only fault. -/
theorem storeThenLoadRestoresRegisters : Obligations.StoreThenLoadRestoresRegisters := by
  intro x s t u quiet stored loaded
  obtain ⟨_, stores, storeFaults⟩ := storeRegsStoresV0ToVx x s
  obtain ⟨_, loads, loadFaults⟩ := loadRegsLoadsV0ToVx x t
  by_cases fits : s.i.toNat + x < s.config.memSize
  · obtain ⟨_, stored', bytes, _, _, frame⟩ := stores fits
    cases stored.symm.trans stored'
    have index : t.i = s.i := frame .i (by decide)
    have config : t.config = s.config := frame .config (by decide)
    have regs : ∀ r, getV t r = getV s r := frame .v (by decide)
    have fault : t.fault = s.fault := frame .fault (by decide)
    obtain ⟨_, loaded', load, _, frame'⟩ := loads (by rw [index, config]; exact fits)
    cases loaded.symm.trans loaded'
    have fault' : u.fault = t.fault := frame' .fault (by decide)
    refine ⟨fun r => ?_, by simp [fault, quiet, fits], by rw [fault']⟩
    rw [load]
    split
    · next upTo => rw [index, bytes r upTo]
    · exact regs r
  · rw [storeFaults (by omega)] at stored
    cases stored
    rw [loadFaults (by simpa using fits)] at loaded
    cases loaded
    exact ⟨fun _ => rfl, by simp [fits], by simp⟩

end Sys2Proof.Machine
end

section
/-! SUPPORT. The key and timer family (44_keys_timers.md): a key skip on a key and on no key, the key wait and the step call
that runs it, and ticks as a countdown of both timers. -/

namespace Sys2Proof.Machine

variable {x : Reg} {s t : State}

/-! ### The timers -/

/-- The frame of an update of the timers, or of one of them: the other is then given the value it has. -/
theorem withTimers_keepsExcept {parts : List Part} {delay sound : Byte} (dt : .dt ∈ parts ∨ delay = s.dt)
    (st : .st ∈ parts ∨ sound = s.st) : KeepsExcept parts s { s with dt := delay, st := sound } :=
  keepsExcept_of_fields rfl (.inr rfl) (.inr rfl) (.inr rfl) dt st (.inr rfl) (.inr rfl) (.inr rfl) (.inr rfl) (.inr rfl)
    (.inr rfl) (.inr rfl)

/-- A byte counted down is still a byte. -/
theorem toNat_ofNat_sub (b : Byte) (n : Nat) : (BitVec.ofNat 8 (b.toNat - n)).toNat = b.toNat - n := by
  rw [BitVec.toNat_ofNat]
  exact Nat.mod_eq_of_lt ((Nat.sub_le ..).trans_lt b.isLt)

theorem tick_zero (s : State) : tick 0 s = s := by
  simp [tick]

/-- Two bursts of ticks are one (R205, R206). -/
theorem tick_tick (n m : Nat) (s : State) : tick n (tick m s) = tick (n + m) s := by
  simp only [tick, toNat_ofNat_sub, Nat.sub_sub, Nat.add_comm m n]

theorem tick_eq_iterate (n : Nat) (s : State) : tick n s = (tick 1)^[n] s := by
  induction n generalizing s with
  | zero => exact tick_zero s
  | succ n ih => rw [Function.iterate_succ_apply, ← ih, tick_tick]

/-- Settles O46: a timer is a byte, counted down; bursts of ticks add up. -/
theorem ticksCountDownAndSaturate : Obligations.TicksCountDownAndSaturate := fun n s =>
  ⟨toNat_ofNat_sub s.dt n, toNat_ofNat_sub s.st n, withTimers_keepsExcept (.inl (by decide)) (.inl (by decide)),
    tick_eq_iterate n s, tick_zero s⟩

/-- Settles O57: fetch reads no timer, and a tick leaves the latch as it is. -/
theorem ticksAreASeparateAgent : Obligations.TicksAreASeparateAgent := fun n m s =>
  ⟨tick_tick n m s, rfl, fetch_congr rfl rfl rfl, fun _ latched => ⟨latched, instructionStep_of_latched latched⟩⟩

/-- Settles O43: each writes one register or one timer, then PC. -/
theorem timerMoves : Obligations.TimerMoves := fun x _ =>
  ⟨⟨toNat_encodeXFF (by decide) x, _, rfl, writesReg_advance_setV _⟩,
    ⟨toNat_encodeXFF (by decide) x, _, rfl, rfl, advance_pc _,
      (withTimers_keepsExcept (parts := [.dt]) (.inl (by decide)) (.inr rfl)).trans advance_keepsExcept⟩,
    ⟨toNat_encodeXFF (by decide) x, _, rfl, rfl, advance_pc _,
      (withTimers_keepsExcept (parts := [.st]) (.inr rfl) (.inl (by decide))).trans advance_keepsExcept⟩⟩

/-! ### The key skips -/

/-- A key skip where V[x] is a key: one query of it, and a skip where the answer is the one skipped on (R190, R191). -/
theorem keySkip_of_key {k : Key} (i : Instr) (on : Bool) (key : (getV s x).toNat = k.val) :
    ∃ down t, keySkip i x on s = .next t ∧ t.host.events = .keyDown k down :: s.host.events ∧
      t.pc = (if down = on then s.pc + 4 else s.pc + 2) ∧ KeepsExcept [.pc, .host] s t := by
  simp only [keySkip, keyOperand?_eq_some.2 key]
  exact ⟨_, _, rfl, rfl, skipIf_pc_of_iff beq_iff_eq _,
    ((withHost_keepsExcept _).trans (skipIf_keepsExcept _)).mono (by decide)⟩

/-- A key skip where V[x] is no key only faults (R190, R191). -/
theorem keySkip_of_no_key (i : Instr) (on : Bool) (noKey : 15 < (getV s x).toNat) : keySkip i x on s =
    .next { s with fault := some ⟨.keyRange, s.pc, some (encode i), none, some (getV s x)⟩ } := by
  simp only [keySkip, keyOperand?_eq_none.2 noKey]
  rfl

/-- Settles O42: SKP is the key skip on a key that is down, SKNP the one on a key that is up. -/
theorem keySkipsAskTheHost : Obligations.KeySkipsAskTheHost := by
  intro x s
  refine ⟨toNat_encodeXFF (by decide) x, toNat_encodeXFF (by decide) x, fun k key => ⟨keySkip_of_key (.skp x) true key, ?_⟩,
    fun noKey => ⟨keySkip_of_no_key _ true noKey, keySkip_of_no_key _ false noKey⟩⟩
  obtain ⟨down, t, executed, events, pc, frame⟩ := keySkip_of_key (.sknp x) false key
  exact ⟨down, t, executed, events, pc.trans (by cases down <;> rfl), frame⟩

/-! ### The key wait -/

/-- The frame of the query itself, before its answer is looked at (R204). -/
theorem keyQuery_keepsExcept (h : HostPort) : KeepsExcept [.wasBlocking, .host] s { s with host := h, wasBlocking := true } :=
  keepsExcept_of_fields rfl (.inr rfl) (.inr rfl) (.inr rfl) (.inr rfl) (.inr rfl) (.inr rfl) (.inr rfl) (.inr rfl)
    (.inr rfl) (.inl (by decide)) (.inr rfl) (.inl (by decide))

/-- MOV Vx,K sets the key-wait flag with either answer (R38, R204). -/
theorem movVxK_wasBlocking (executed : exec (.movVxK x) s = .next t) : t.wasBlocking = true := by
  obtain ⟨_, _, rfl⟩ | ⟨_, rfl⟩ := movVxK_cases executed <;> rfl

/-- A call's steps end after one that leaves the key-wait flag set (R325). -/
theorem runSteps_of_blocking (n : Nat) (stepped : instructionStep s = .next t) (quiet : t.fault = none)
    (blocking : t.wasBlocking = true) : runSteps (n + 1) s = (t, .ok) := by
  simp only [runSteps, stepped, quiet, blocking, if_true]

/-- The flag that a step call clears first is one that MOV Vx,K overwrites, so the call at a key wait answers its next state
(R204, R325). -/
theorem stepCall_of_atKeyWait (n : Nat) (wait : AtKeyWait x s) (executed : exec (.movVxK x) s = .next t) :
    stepCall (n + 1) s = (t, .ok) := by
  obtain ⟨quiet, fetched⟩ := wait
  have stepped := calc instructionStep { s with wasBlocking := false }
    _ = exec (.movVxK x) { s with wasBlocking := false } :=
      instructionStep_of_decoded quiet ((fetch_congr rfl rfl rfl).trans fetched) (decode_encode _)
    _ = exec (.movVxK x) s := rfl
    _ = .next t := executed
  have fault : t.fault = s.fault := Completes.fault (i := .movVxK x) executed
  exact runSteps_of_blocking n stepped (fault.trans quiet) (movVxK_wasBlocking executed)

/-- Settles O44: the query, then one register and PC where the answer is a key; a step call ends with it. -/
theorem keyWaitStoresOrHolds : Obligations.KeyWaitStoresOrHolds := by
  intro x s
  obtain ⟨t, executed⟩ := exec_answers (.movVxK x) s
  have returned : s.fault = none → fetch s = .ok (encode (.movVxK x)) → ∀ n, stepCall (n + 1) s = (t, .ok) :=
    fun quiet fetched n => stepCall_of_atKeyWait n ⟨quiet, fetched⟩ executed
  refine ⟨toNat_encodeXFF (by decide) x, t, keyAnswer s, executed, ?_⟩
  obtain ⟨k, answer, rfl⟩ | ⟨answer, rfl⟩ := movVxK_cases executed
  · obtain ⟨regs, pc, frame⟩ := writesReg_advance_setV (x := x) (BitVec.ofNat 8 k)
      (s := { s with host := (hostGetKey (requestRedraw s.host)).2, wasBlocking := true })
    refine ⟨rfl, rfl, ((keyQuery_keepsExcept _).trans frame).mono (by decide), fun k' key => ⟨pc, ?_, fun r other => ?_⟩,
      fun unanswered => (nomatch answer.symm.trans unanswered), returned⟩
    · obtain rfl : k = k' := Option.some.inj (answer.symm.trans key)
      rw [regs x, if_pos rfl, BitVec.toNat_ofNat]
      omega
    · rw [regs r, if_neg other]
      rfl
  · exact ⟨rfl, rfl, (keyQuery_keepsExcept _).mono (by decide), fun k key => (nomatch answer.symm.trans key),
      fun _ => ⟨rfl, fun _ => rfl⟩, returned⟩

end Sys2Proof.Machine
end

section
/-! SUPPORT. The instruction step in its order (60_exceptions.md R305), the step after the ticks due, the placing of an
instruction, and what the host's calls compose and keep (R325, R326). -/

namespace Sys2Proof.Machine

variable {s t : State}

/-! ### The order of an instruction step -/

/-- The word at PC is the number its two bytes make (R55, R305). -/
theorem fetch_of_toNat_eq {w : Word} (even : s.pc.toNat % 2 = 0) (inside : s.pc.toNat + 1 < s.config.memSize)
    (word : w.toNat = 256 * (byteAt s s.pc.toNat).toNat + (byteAt s (s.pc.toNat + 1)).toNat) : fetch s = .ok w :=
  fetch_eq_ok.2 ⟨even, inside, BitVec.eq_of_toNat_eq (word.trans (toNat_wordOfBytes ..).symm)⟩

/-- Settles O9: one case of the instruction step after the other, each fetch fault by its place in the order of fetch. -/
theorem instructionStepFollowsItsOrder : Obligations.InstructionStepFollowsItsOrder := by
  refine fun s => ⟨fun r latched t stepped => ?_, fun quiet => ⟨fun odd => ?_, fun even => ⟨fun past => ?_, ?_⟩⟩⟩
  · exact nomatch (instructionStep_of_latched latched).symm.trans stepped
  · exact instructionStep_of_fetch_error quiet (fetch_eq_error.2 (.inl ⟨odd, rfl⟩))
  · exact instructionStep_of_fetch_error quiet (fetch_eq_error.2 (.inr ⟨even, past, rfl⟩))
  · intro inside w word
    have fetched : fetch s = .ok w := fetch_of_toNat_eq even inside word
    exact ⟨fun _ => instructionStep_of_invalid quiet fetched, fun _ => instructionStep_of_decoded quiet fetched⟩

/-! ### A step after the ticks due -/

@[simp] theorem fetch_applyDueTicks (s : State) : fetch (applyDueTicks s) = fetch s :=
  fetch_congr (applyDueTicks_pc s) (applyDueTicks_config s) (applyDueTicks_mem s)

/-- Ticks change neither the latch nor what is fetched, so a step runs the instruction at PC (R206, R305). -/
theorem step_of_decoded {w : Word} {i : Instr} (quiet : s.fault = none) (fetched : fetch s = .ok w)
    (decoded : decode w = .ok i) : step s = exec i (applyDueTicks s) :=
  instructionStep_of_decoded (by simpa using quiet) (by simpa using fetched) decoded

theorem applyDueTicks_keepsExcept (s : State) : KeepsExcept [.dt, .st, .host] s (applyDueTicks s) :=
  keepsExcept_of_fields (applyDueTicks_config s) (.inr (applyDueTicks_v s)) (.inr (applyDueTicks_i s))
    (.inr (applyDueTicks_pc s)) (.inl (by decide)) (.inl (by decide)) (.inr (applyDueTicks_stack s))
    (.inr (applyDueTicks_sp s)) (.inr (applyDueTicks_fb s)) (.inr (applyDueTicks_mem s))
    (.inr (applyDueTicks_wasBlocking s)) (.inr (applyDueTicks_fault s)) (.inl (by decide))

/-- Settles O8: the step runs what fetch reads; the ticks due are one burst of ticks, or none. -/
theorem stepRunsTheDecodedInstruction : Obligations.StepRunsTheDecodedInstruction := by
  intro s i quiet even inside decoded
  have stepped : step s = exec i (applyDueTicks s) := step_of_decoded quiet (fetch_eq_ok.2 ⟨even, inside, rfl⟩) decoded
  refine ⟨stepped, applyDueTicks_keepsExcept s, fun noTicks => ?_, fun n rest due => ?_⟩
  · rw [stepped, applyDueTicks_of_nil s noTicks]
  · rw [applyDueTicks_of_cons s n rest due]
    exact ⟨toNat_ofNat_sub s.dt n, toNat_ofNat_sub s.st n, rfl⟩

/-- A state that a step leaves as it is stays for any number of steps. -/
theorem run_of_step_self {M : Host.Core} {s : M.State} (still : M.step s = .next s) (n : Nat) : M.run n s = .next s := by
  induction n with
  | zero => rfl
  | succ n ih => simp only [Host.Core.run, still, ih]

/-- Settles O56: with no ticks due a step is an instruction step, and that of a self-jump changes nothing. -/
theorem selfJumpLeavesAllUnchanged : Obligations.SelfJumpLeavesAllUnchanged := fun s ended noTicks =>
  have still : step s = .next s := by rw [step, applyDueTicks_of_nil s noTicks, instructionStep_of_self_jump ended]
  run_of_step_self (M := Sys2Proof.core) still

/-! ### An instruction placed for the next step -/

/-- A table word that decodes is the word its low 16 bits make, decoded (R55). -/
theorem decode_of_decodeTableWord {w : Nat} {i : Instr} (h : decodeTableWord 16 w = some i) :
    decode (BitVec.ofNat 16 w) = .ok i := by
  have low : decodeTableWord 16 (w % 2 ^ 16) = decodeTableWord 16 w := by simp only [decodeTableWord, Nat.mod_mod]
  rw [← low, ← BitVec.toNat_ofNat, decodeTableWord_toNat] at h
  cases decoded : decode (BitVec.ofNat 16 w) with
  | error e => rw [decoded] at h; cases h
  | ok j => rw [decoded] at h; cases h; rfl

@[simp] theorem withFetchWord_config (s : State) (nbits w : Nat) : (s.withFetchWord nbits w).config = s.config := rfl
@[simp] theorem withFetchWord_fault (s : State) (nbits w : Nat) : (s.withFetchWord nbits w).fault = none := rfl

/-- The address found for a fetch fits in PC (R27). -/
@[simp] theorem toNat_withFetchWord_pc (s : State) (nbits w : Nat) :
    (s.withFetchWord nbits w).pc.toNat = fetchableAddress s := by
  have := s.config.valid.pc_fits
  have := (fetchableAddress_spec s).2
  exact (BitVec.toNat_ofNat ..).trans (Nat.mod_eq_of_lt (by omega))

/-- Two states have the same word at an address when their configurations and memories are one. -/
theorem fetchWord_congr (config : t.config = s.config) (mem : t.mem = s.mem) (a : Nat) : fetchWord t a = fetchWord s a := by
  simp only [fetchWord, byteAt_congr config mem]

/-- A word stored where it is fetched is fetched as it was, its high byte first (R55). -/
theorem fetchWord_storeBytes_word (s : State) (a : Nat) (w : Word) :
    fetchWord (storeBytes a [hiByte w, loByte w] s) a = w :=
  (fetchWord_storeBytes s a _ _).trans (wordOfBytes_hi_lo w)

@[simp] theorem fetchWord_withFetchWord (s : State) (nbits w : Nat) :
    fetchWord (s.withFetchWord nbits w) (fetchableAddress s) = BitVec.ofNat 16 (w % 2 ^ nbits) :=
  (fetchWord_congr rfl rfl _).trans (fetchWord_storeBytes_word s _ _)

/-- The word placed is the word fetched: its two bytes stand where PC is put, which can be fetched from. -/
theorem fetch_withFetchWord (s : State) (w : Nat) : fetch (s.withFetchWord 16 w) = .ok (BitVec.ofNat 16 w) := by
  obtain ⟨even, inside⟩ := fetchableAddress_spec s
  have word : BitVec.ofNat 16 w = BitVec.ofNat 16 (w % 2 ^ 16) := BitVec.eq_of_toNat_eq (by simp)
  rw [fetch_eq_ok, toNat_withFetchWord_pc, withFetchWord_config, fetchWord_withFetchWord]
  exact ⟨even, inside, word⟩

/-- Settles O60: placing clears the latch and puts the word where the step fetches. -/
theorem placedWordIsRunNext : Obligations.PlacedWordIsRunNext := fun s w _ decoded =>
  step_of_decoded (withFetchWord_fault s 16 w) (fetch_withFetchWord s w) (decode_of_decodeTableWord decoded)

/-! ### The host's calls -/

/-- Settles O14: instruction steps keep the invariant, and ticks and the clearing of was_blocking change no part of it. -/
theorem invariantKeptByHostCalls : Obligations.InvariantKeptByHostCalls := fun c s =>
  hostCall_keeps (fun _ _ => instructionStep_inv) (fun _ _ inv => inv.congr rfl rfl rfl rfl rfl rfl rfl)
    (fun _ inv => inv.congr rfl rfl rfl rfl rfl rfl rfl) c s

theorem withWasBlocking_keepsExcept (b : Bool) : KeepsExcept [.wasBlocking] s { s with wasBlocking := b } :=
  keepsExcept_of_fields rfl (.inr rfl) (.inr rfl) (.inr rfl) (.inr rfl) (.inr rfl) (.inr rfl) (.inr rfl) (.inr rfl)
    (.inr rfl) (.inl (by decide)) (.inr rfl) (.inr rfl)

/-- A step call that runs no step clears was_blocking only (R325). -/
theorem stepCall_of_nothing_to_run {n : Nat} (nothing : n = 0 ∨ s.fault ≠ none) :
    (stepCall n s).1 = { s with wasBlocking := false } := by
  obtain rfl | faulted := nothing
  · rfl
  · obtain ⟨r, latched⟩ := Option.ne_none_iff_exists'.1 faulted
    rw [stepCall_of_latched latched]

/-- Settles O53: a tick is an update of the timers, a step call with nothing to run is one of was_blocking. -/
theorem hostWritesTimersOnly : Obligations.HostWritesTimersOnly := fun n s =>
  ⟨withTimers_keepsExcept (.inl (by decide)) (.inl (by decide)), fun nothing => by
    rw [hostCall, stepCall_of_nothing_to_run nothing]
    exact withWasBlocking_keepsExcept false⟩

/-- A call's steps end after one that faults (R325). -/
theorem runSteps_of_faulting (n : Nat) {r : FaultRecord} (stepped : instructionStep s = .next t)
    (faulted : t.fault = some r) : runSteps (n + 1) s = (t, .err r) := by
  simp only [runSteps, stepped, faulted]

/-- A call's steps go on after one that neither faults nor leaves the key-wait flag set (R325). -/
theorem runSteps_of_going_on (n : Nat) (stepped : instructionStep s = .next t) (quiet : t.fault = none)
    (going : t.wasBlocking = false) : runSteps (n + 1) s = runSteps n t := by
  simp [runSteps, stepped, quiet, going]

/-- Clearing a flag that is clear changes nothing. -/
theorem stepCall_of_clear (n : Nat) (clear : t.wasBlocking = false) : stepCall n t = runSteps n t := by
  rw [stepCall, ← clear]

/-- Settles O54: the steps of a call by the outcome of the first; those that remain are a call of their own, since the flag
it clears is clear. -/
theorem stepCallComposition : Obligations.StepCallComposition := by
  refine fun s => ⟨fun n r latched => ?_, fun quiet => ?_, fun n t stepped => ⟨fun r faulted => ?_, ?_, ?_⟩⟩
  · rw [stepCall_of_latched latched]
    exact ⟨rfl, withWasBlocking_keepsExcept false⟩
  · simp only [stepCall, runSteps, quiet]
  · exact runSteps_of_faulting n stepped faulted
  · exact runSteps_of_blocking n stepped
  · exact fun quiet clear => (runSteps_of_going_on n stepped quiet clear).trans (stepCall_of_clear n clear).symm

end Sys2Proof.Machine
end

section
/-! SUPPORT. Program load and launch (70_reset_and_hazards.md R400 to R405): what an accepted load leaves, and the invariant
from the launch to the end of a session. -/

namespace Sys2Proof.Machine

variable {c : Config} {image : List Byte} {s t : State}

/-! ### An accepted load -/

/-- R7's largest image is the room from LOAD_BASE to the end of memory. -/
theorem maxProgram_eq (c : Config) : c.maxProgram = c.memSize - c.loadBase := c.valid.maxProgram

/-- The entry point fits in PC (R403). -/
theorem toNat_entryPoint (c : Config) : (BitVec.ofNat 16 c.loadBase).toNat = c.loadBase := by
  have room := c.valid.entry_room
  have fits := c.valid.pc_fits
  exact (BitVec.toNat_ofNat ..).trans (Nat.mod_eq_of_lt (by omega))

/-- What an accepted load does: a store of the image and a redirect to the entry point (R402). -/
theorem loadProgram?_spec (loaded : loadProgram? image s = some t) :
    t.pc.toNat = s.config.loadBase ∧
    (∀ k, k < image.length → byteAt t (s.config.loadBase + k) = image.getD k 0) ∧
    (∀ a, (a < s.config.loadBase ∨ s.config.loadBase + image.length ≤ a) → byteAt t a = byteAt s a) ∧
    KeepsExcept [.mem, .pc] s t := by
  obtain ⟨_, rfl⟩ := loadProgram?_eq_some.1 loaded
  exact ⟨toNat_entryPoint s.config, fun k inImage => byteAt_storeBytes_at s _ k image inImage,
    fun a notImage => byteAt_storeBytes_outside s _ a image notImage,
    (storeBytes_keepsExcept _ image).trans (redirect_keepsExcept _)⟩

/-- Settles O50: MAX_PROGRAM decides, and the spec of an accepted load says the rest. -/
theorem programLoad : Obligations.ProgramLoad := by
  intro image s
  rw [← maxProgram_eq]
  exact ⟨loadCall_of_too_long, fun fits => ⟨_, loadCall_of_fits fits,
    loadProgram?_spec (loadProgram?_eq_some.2 ⟨fits, rfl⟩)⟩⟩

/-- Settles O51: the load's frame keeps what creation left, and creation's memory stands outside the image, which the font
lies below (R51). -/
theorem launchValues : Obligations.LaunchValues := by
  intro c image s launched
  obtain ⟨pc, stored, outside, frame⟩ := loadProgram?_spec launched
  have below : c.fontBase + c.font.length ≤ c.loadBase := c.valid.low_font
  have font : ∀ a, a < c.font.length → byteAt s (c.fontBase + a) = c.font.getD a 0 := fun a inFont =>
    (outside _ (.inl (show c.fontBase + a < c.loadBase by omega))).trans (byteAt_created_font c a)
  have zero : ∀ a, (a < c.fontBase ∨ c.fontBase + c.font.length ≤ a) → (a < c.loadBase ∨ c.loadBase + image.length ≤ a) →
      byteAt s a = 0 := fun a notFont notImage => (outside a notImage).trans (byteAt_created_outside c a notFont)
  have fb : s.fb = clearedFramebuffer c := frame .fb (by decide)
  exact ⟨frame .fault (by decide), frame .wasBlocking (by decide), frame .sp (by decide), pc, font, stored, zero,
    fun r => (frame .v (by decide) r).trans (getV_created c r), frame .i (by decide), frame .dt (by decide),
    frame .st (by decide), fb ▸ pixel_cleared⟩

/-! ### The invariant of a session -/

/-- An accepted load on a core without a fault keeps the invariant: the image ends inside memory, and the entry point is
in the bounds of R27. A latched record would name the PC before the load. -/
theorem Inv.of_load (inv : Inv s) (quiet : s.fault = none) (loaded : loadProgram? image s = some t) : Inv t := by
  obtain ⟨fits, rfl⟩ := loadProgram?_eq_some.1 loaded
  have room := s.config.valid.entry_room
  have inMemory : s.config.loadBase + image.length ≤ s.config.memSize := by rw [maxProgram_eq] at fits; omega
  exact {
    mem_wf := wf_of_writeBytes inv.mem_wf (by simpa using inMemory)
    stack_shape := inv.stack_shape
    fb_shape := inv.fb_shape
    pc_bound := by rw [redirect_pc, toNat_entryPoint, redirect_config, storeBytes_config]; omega
    stack_entries := inv.stack_entries
    fault_pc := by simp [quiet]
    fault_shape := by simp [quiet] }

theorem inv_launched (launched : launch? c image = some s) : Inv s := (inv_created c).of_load rfl launched

/-- The state of a session's one load is the launch state of one of its images (R326). -/
theorem launched_of_firstAccepted? {images : List (List Byte)} (accepted : firstAccepted? c images = some s) :
    ∃ image ∈ images, launch? c image = some s :=
  List.exists_of_findSome?_eq_some accepted

/-- Settles O15: a launch state meets the invariant, and the host's calls after it keep it. -/
theorem sessionsMeetTheInvariant : Obligations.SessionsMeetTheInvariant := by
  refine fun c => ⟨fun _ _ => inv_launched, fun session t _ final => ?_⟩
  obtain ⟨s, accepted, rfl⟩ := Option.map_eq_some_iff.1 final
  obtain ⟨image, _, launched⟩ := launched_of_firstAccepted? accepted
  exact hostCalls_keeps invariantKeptByHostCalls session.calls s (inv_launched launched)

end Sys2Proof.Machine
end

section
/-! SUPPORT. Progress under the host's weak fairness (70_reset_and_hazards.md R421): a key wait holds up to the call that is
answered, and a timer that only ticks change runs down. -/

namespace Sys2Proof.Machine

variable {calls : Nat → HostCall} {x : Reg} {key : Key} {s t : State}

/-! ### A key wait under one call -/

/-- Whether a core waits for a key depends on the latch and on what fetch reads. -/
theorem AtKeyWait.congr (wait : AtKeyWait x s) (fault : t.fault = s.fault) (pc : t.pc = s.pc) (config : t.config = s.config)
    (mem : t.mem = s.mem) : AtKeyWait x t :=
  ⟨fault.trans wait.1, (fetch_congr pc config mem).trans wait.2⟩

/-- A call that executes an instruction at a key wait and is answered with a key completes it (R204, R325). -/
theorem stepCall_of_answer (n : Nat) (wait : AtKeyWait x s) (answer : keyAnswer s = some key) :
    (getV (stepCall (n + 1) s).1 x).toNat = key.val ∧ (stepCall (n + 1) s).1.pc = s.pc + 2 := by
  obtain ⟨t, executed⟩ := exec_answers (.movVxK x) s
  rw [stepCall_of_atKeyWait n wait executed]
  obtain ⟨k, given, rfl⟩ | ⟨unanswered, _⟩ := movVxK_cases executed
  · obtain rfl : k = key := Option.some.inj (given.symm.trans answer)
    have byte : (BitVec.ofNat 8 k.val).toNat = k.val := (BitVec.toNat_ofNat ..).trans (Nat.mod_eq_of_lt (by omega))
    exact ⟨by rw [getV_advance, getV_setV, if_pos rfl, byte], advance_pc _⟩
  · exact nomatch unanswered.symm.trans answer

/-- A call that executes no instruction, or whose query gets no key, leaves the core waiting where it is (R204, R206). -/
theorem hostCall_holds_keyWait {c : HostCall} (wait : AtKeyWait x s)
    (unanswered : (∃ k, c = .step (k + 1)) → keyAnswer s = none) :
    AtKeyWait x (hostCall c s).1 ∧ (hostCall c s).1.pc = s.pc := by
  cases c with
  | tick n => exact ⟨wait.congr rfl rfl rfl rfl, rfl⟩
  | step n =>
    cases n with
    | zero => exact ⟨wait.congr rfl rfl rfl rfl, rfl⟩
    | succ n =>
      obtain ⟨t, executed⟩ := exec_answers (.movVxK x) s
      rw [hostCall, stepCall_of_atKeyWait n wait executed]
      obtain ⟨_, given, _⟩ | ⟨_, rfl⟩ := movVxK_cases executed
      · exact nomatch given.symm.trans (unanswered ⟨n, rfl⟩)
      · exact ⟨wait.congr rfl rfl rfl rfl, rfl⟩

/-! ### The key wait of a fair host -/

/-- The n-th call executes an instruction, and a key query of it would be answered with a key. -/
def AnswersAt (calls : Nat → HostCall) (s : State) (n : Nat) : Prop :=
  (∃ k, calls n = .step (k + 1)) ∧ keyAnswer (stateAt calls s n) ≠ none

/-- With no answer before the n-th call the core still waits there. -/
theorem atKeyWait_stateAt (wait : AtKeyWait x s) (n : Nat) (unanswered : ∀ m < n, ¬ AnswersAt calls s m) :
    AtKeyWait x (stateAt calls s n) ∧ (stateAt calls s n).pc = s.pc := by
  induction n with
  | zero => exact ⟨wait, rfl⟩
  | succ n ih =>
    obtain ⟨waits, pc⟩ := ih fun m before => unanswered m (by omega)
    obtain ⟨holds, same⟩ := hostCall_holds_keyWait (c := calls n) waits fun runs =>
      not_not.1 fun answered => unanswered n (by omega) ⟨runs, answered⟩
    exact ⟨holds, same.trans pc⟩

/-- A fair host answers: were the core never answered it would wait for ever, and so be answered. -/
theorem HostFair.exists_answersAt (fair : HostFair calls s) (wait : AtKeyWait x s) : ∃ n, AnswersAt calls s n := by
  by_contra never
  obtain ⟨m, k, _, runs, answers⟩ := fair.answers_key_waits 0
  have waits := (atKeyWait_stateAt wait m fun n _ answered => never ⟨n, answered⟩).1
  exact never ⟨m, ⟨k, runs⟩, answers x waits⟩

/-- Settles O58: the wait holds up to the first answer, and that call completes it. -/
theorem keyWaitEndsUnderFairness : Obligations.KeyWaitEndsUnderFairness := by
  intro calls s x fair wait
  classical
  have answered := fair.exists_answersAt wait
  have holds : ∀ n ≤ Nat.find answered, AtKeyWait x (stateAt calls s n) ∧ (stateAt calls s n).pc = s.pc := fun n upTo =>
    atKeyWait_stateAt wait n fun m before => Nat.find_min answered (before.trans_le upTo)
  obtain ⟨⟨k, runs⟩, some_key⟩ := Nat.find_spec answered
  obtain ⟨key, answer⟩ := Option.ne_none_iff_exists'.1 some_key
  obtain ⟨waits, pc⟩ := holds _ le_rfl
  obtain ⟨stored, passed⟩ := stepCall_of_answer k waits answer
  refine ⟨Nat.find answered, key, fun n upTo => (holds n upTo).1, answer, ?_⟩
  rw [stateAt, runs, ← pc]
  exact ⟨stored, passed⟩

/-! ### A timer of a fair host -/

/-- A timer before the n-th call of an endless sequence of calls, as a number. -/
def countAt (timer : State → Byte) (calls : Nat → HostCall) (s : State) (n : Nat) : Nat := (timer (stateAt calls s n)).toNat

section
variable {timer : State → Byte} (ticked : ∀ n s, (timer (tick n s)).toNat = (timer s).toNat - n)
  (kept : ∀ m n, calls m = .step n → timer (stateAt calls s (m + 1)) = timer (stateAt calls s m))
include ticked

/-- A tick call counts the timer down (R205). -/
theorem countAt_succ_of_tick {m n : Nat} (call : calls m = .tick n) :
    countAt timer calls s (m + 1) = countAt timer calls s m - n := by
  rw [countAt, stateAt, call]
  exact ticked n _

include kept

/-- A timer that no step call changes never goes up. -/
theorem countAt_antitone : Antitone (countAt timer calls s) :=
  antitone_nat_of_succ_le fun m => by
    cases call : calls m with
    | step n => exact (congrArg BitVec.toNat (kept m n call)).le
    | tick n => exact (countAt_succ_of_tick ticked call).trans_le (Nat.sub_le ..)

/-- It is 0 where it is lowest: a tick comes after that, and does not bring it lower. -/
theorem HostFair.exists_timer_eq_zero (fair : HostFair calls s) : ∃ m, timer (stateAt calls s m) = 0 := by
  obtain ⟨lowest, least⟩ : ∃ n, ∀ m, countAt timer calls s n ≤ countAt timer calls s m :=
    ⟨Function.argmin (countAt timer calls s), fun m => Function.argmin_le _ m⟩
  obtain ⟨m, k, later, call⟩ := fair.keeps_ticking lowest
  have after : countAt timer calls s (m + 1) = countAt timer calls s m - (k + 1) := countAt_succ_of_tick ticked call
  have below : countAt timer calls s m ≤ countAt timer calls s lowest := countAt_antitone ticked kept later
  have above : countAt timer calls s lowest ≤ countAt timer calls s (m + 1) := least (m + 1)
  exact ⟨lowest, BitVec.eq_of_toNat_eq (show countAt timer calls s lowest = 0 by omega)⟩

end

/-- Settles O59: both timers are counted down by ticks, and a fair host keeps ticking. -/
theorem timersRunDownUnderFairness : Obligations.TimersRunDownUnderFairness := fun _ _ fair =>
  ⟨fun kept => fair.exists_timer_eq_zero (timer := State.dt) (fun n s => toNat_ofNat_sub s.dt n) kept,
    fun kept => fair.exists_timer_eq_zero (timer := State.st) (fun n s => toNat_ofNat_sub s.st n) kept⟩

end Sys2Proof.Machine
end

section
/-! SUPPORT. The model's two choices about the host: its answers are scripted first and then free (assumption log 4), and a
rejected load is not its one load (assumption log 12). -/

namespace Sys2Proof.Machine

/-! ### Scripted answers -/

/-- An answer taken from a script with a free value behind it is the script's first one, where there is one. -/
theorem headD_of_scripted {α : Type} {script : List α} {free : α} :
    ∀ answer rest, script = answer :: rest → script.headD free = answer := by
  rintro answer rest rfl
  exact List.headD_cons

/-- A key skip where V[x] is a key changes of the host's part what one query of that key does (R190, R191, R320). -/
theorem keySkip_host {i : Instr} {x : Reg} {on : Bool} {k : Key} {s t : State} (key : (getV s x).toNat = k.val)
    (executed : keySkip i x on s = .next t) : t.host = (hostKeyDown k s.host).2 := by
  obtain ⟨asked, named, rfl⟩ | ⟨noKey, _⟩ := keySkip_cases executed
  · obtain rfl : asked = k := Fin.ext (named.symm.trans key)
    rw [skipIf_host]
  · omega

/-- The key wait changes of the host's part what one redraw event and one key query do, with either answer (R204, R321,
R322). -/
theorem movVxK_host {x : Reg} {s t : State} (executed : exec (.movVxK x) s = .next t) :
    t.host = (hostGetKey (requestRedraw s.host)).2 := by
  obtain ⟨_, _, rfl⟩ | ⟨_, rfl⟩ := movVxK_cases executed
  · rw [advance_host, setV_host]
  · rfl

/-- Settles O45: each of the four changes the host's part by its one query, whose answer heads the script. -/
theorem hostAnswersAreScriptedFirst : Obligations.HostAnswersAreScriptedFirst := by
  refine fun x kk s t => ⟨fun drawn => ⟨(rand8 s.host).1, headD_of_scripted, ?_⟩,
    fun k key skipped => ⟨(hostKeyDown k s.host).1, headD_of_scripted, ?_⟩,
    fun waited => ⟨keyAnswer s, headD_of_scripted, movVxK_host waited⟩⟩
  · cases drawn
    rfl
  · exact skipped.elim (keySkip_host key) (keySkip_host key)

/-! ### Loads tried one after another -/

/-- Settles O52: MAX_PROGRAM decides whether the first image is rejected or is the session's one load. -/
theorem rejectedLoadsMayBeRetried : Obligations.RejectedLoadsMayBeRetried := by
  intro c image images calls
  rw [← maxProgram_eq]
  refine ⟨fun tooLong => ?_, fun fits => ?_, rfl⟩
  · have rejected : launch? c image = none := loadProgram?_eq_none.2 tooLong
    exact congrArg (Option.map (hostCalls calls)) (firstAccepted?_of_rejected rejected)
  · obtain ⟨s, launched⟩ : ∃ s, launch? c image = some s := ⟨_, loadProgram?_eq_some.2 ⟨fits, rfl⟩⟩
    exact ⟨s, launched, congrArg (Option.map (hostCalls calls)) (firstAccepted?_of_accepted launched)⟩

end Sys2Proof.Machine
end
